-- ==== Sys2Proof/Word.lean ====
section
/-! DEFINITION. The word types of UARTCORE: every register is 8 bits (00_scope.md R5, `REGW`), the divisor is 16
bits (`DIVW`), a command is one 64-bit word (30_encoding.md R51). -/

namespace Sys2Proof

/-- One register, one character, one operand byte. -/
abbrev Byte := BitVec 8

/-- The 16-bit divisor, before it is split into two bytes. -/
abbrev DivWord := BitVec 16

/-- One command word `CW[63:0]`. -/
abbrev CmdWord := BitVec 64

end Sys2Proof
end

