-- ==== Sys2Proof/Syntax.lean ====
section
/-! DEFINITION. The commands as syntax: the two ports, the PortConfiguration operand (10_state.md R11, R12), and
the three commands of 30_encoding.md R50, one constructor per row of opcode_table.json. -/

namespace Sys2Proof

/-- One of the two port units (`NPORTS` = 2). -/
inductive Port where
  | A
  | B
  deriving DecidableEq, Repr, Inhabited

/-- The other port of a pair, `q` in 43_transmit_receive.md R113. -/
def Port.other : Port → Port
  | .A => .B
  | .B => .A

/-- A PortConfiguration (R11) in the field widths of R12; every bit pattern of every field is accepted. -/
structure PortConfig where
  baud     : BitVec 32
  dataBits : Byte
  stopBits : Byte
  parity   : Byte
  deriving DecidableEq, Repr, Inhabited

/-- The three commands, each on one named port (R50). -/
inductive Instr where
  | init (p : Port) (config : PortConfig)
  | transmit (p : Port) (byte : Byte)
  | receive (p : Port)
  deriving DecidableEq, Repr

/-- The port operand of a command (R51, field `PORT`). -/
def Instr.port : Instr → Port
  | .init p _ => p
  | .transmit p _ => p
  | .receive p => p

end Sys2Proof
end

