-- ==== Sys2Proof/WellFormed.lean ====
section
/-! DEFINITION. Well-formedness. Every value of every operand field of a command is legal (10_state.md R12,
30_encoding.md R58), so an `Instr`, whose fields have the widths of the command word, has no ill-formed value. The
checks there are stand on the textual form of a command (30_encoding.md R61), whose operands are numbers "within the
field widths of rule R52": `Source` is that form, `Source.wf` the checks, `Source.assemble` the command it stands for. -/

namespace Sys2Proof

/-- A well-formed command. All are (R12, R58): the types carry the field widths of R52 to R54. -/
def Instr.wf : Instr → Bool
  | .init _ _ => true
  | .transmit _ _ => true
  | .receive _ => true

/-- `<parity>` of R61: a name, or a number 0 to 255. -/
inductive ParityText where
  | none
  | odd
  | even
  | code (n : Nat)
  deriving DecidableEq, Repr

/-- `<byte>` of R61: a number 0 to 255, or a quoted character. -/
inductive ByteText where
  | num (n : Nat)
  | quoted (c : Char)
  deriving DecidableEq, Repr

/-- A command as written down (R61). -/
inductive Source where
  | init (p : Port) (baud dataBits stopBits : Nat) (parity : ParityText)
  | transmit (p : Port) (byte : ByteText)
  | receive (p : Port)
  deriving DecidableEq, Repr

/-- The parity code a written parity stands for (R56, R61). -/
def ParityText.value : ParityText → Nat
  | .none => 0
  | .odd => 1
  | .even => 2
  | .code n => n

/-- The byte a written byte stands for (R61; `'A'` is 0x41). -/
def ByteText.value : ByteText → Nat
  | .num n => n
  | .quoted c => c.toNat

/-- Each written operand is within its field's width (R61, R52, R53). -/
def Source.wf : Source → Bool
  | .init _ baud dataBits stopBits parity =>
    decide (baud < 2 ^ 32) && decide (dataBits < 2 ^ 8) && decide (stopBits < 2 ^ 8) && decide (parity.value < 2 ^ 8)
  | .transmit _ byte => decide (byte.value < 2 ^ 8)
  | .receive _ => true

/-- The command a well-formed text stands for; an ill-formed text stands for none. -/
def Source.assemble (t : Source) : Option Instr :=
  if t.wf then
    match t with
    | .init p baud dataBits stopBits parity =>
      some (.init p
        { baud := BitVec.ofNat 32 baud, dataBits := BitVec.ofNat 8 dataBits, stopBits := BitVec.ofNat 8 stopBits,
          parity := BitVec.ofNat 8 parity.value })
    | .transmit p byte => some (.transmit p (BitVec.ofNat 8 byte.value))
    | .receive p => some (.receive p)
  else none

end Sys2Proof
end

