-- ==== Sys2Proof/Decode.lean ====
section
/-! DEFINITION. The command word (30_encoding.md R51 to R57, R63, R64): the decoder, total on 64-bit words, which
names what makes a word reserved, and after it the encoder, written from the same tables. The command word arrives
on a 64-bit parallel input and has no byte order (20_memory.md R33). -/

namespace Sys2Proof

/-- Why a word is reserved (R57): the four outcomes of R64 that are no command. -/
inductive Reserved where
  /-- `Z0` = `CW[7:3]` is not 0 -/
  | z0NotZero
  /-- `OP` = 3 -/
  | op3
  /-- a `TRANSMIT` whose `Z1` = `CW[63:16]` is not 0 -/
  | z1NotZero
  /-- a `RECEIVE` whose `Z2` = `CW[63:8]` is not 0 -/
  | z2NotZero
  deriving DecidableEq, Repr

namespace CW

/-- `OP` = `CW[1:0]` (R51). -/
def op (w : CmdWord) : BitVec 2 := w.extractLsb' 0 2
/-- `PORT` = `CW[2]` (R51). -/
def portBit (w : CmdWord) : BitVec 1 := w.extractLsb' 2 1
/-- `Z0` = `CW[7:3]` (R51). -/
def z0 (w : CmdWord) : BitVec 5 := w.extractLsb' 3 5
/-- `DATA_BITS` = `CW[15:8]` (R52). -/
def dataBits (w : CmdWord) : Byte := w.extractLsb' 8 8
/-- `STOP_BITS` = `CW[23:16]` (R52). -/
def stopBits (w : CmdWord) : Byte := w.extractLsb' 16 8
/-- `PARITY` = `CW[31:24]` (R52). -/
def parity (w : CmdWord) : Byte := w.extractLsb' 24 8
/-- `BAUD` = `CW[63:32]` (R52). -/
def baud (w : CmdWord) : BitVec 32 := w.extractLsb' 32 32
/-- `BYTE` = `CW[15:8]` (R53). -/
def byte (w : CmdWord) : Byte := w.extractLsb' 8 8
/-- `Z1` = `CW[63:16]` (R53). -/
def z1 (w : CmdWord) : BitVec 48 := w.extractLsb' 16 48
/-- `Z2` = `CW[63:8]` (R54). -/
def z2 (w : CmdWord) : BitVec 56 := w.extractLsb' 8 56

end CW

/-- The port a `PORT` bit names: 0 is A, 1 is B (R55). -/
def portOfBit (b : BitVec 1) : Port := if b = 0#1 then .A else .B

/-- The decoding procedure of R64, in its order. -/
def decode (w : CmdWord) : Except Reserved Instr :=
  if CW.z0 w ≠ 0#5 then .error .z0NotZero
  else if CW.op w = 0#2 then
    .ok (.init (portOfBit (CW.portBit w))
      { baud := CW.baud w, dataBits := CW.dataBits w, stopBits := CW.stopBits w, parity := CW.parity w })
  else if CW.op w = 1#2 then
    if CW.z1 w = 0#48 then .ok (.transmit (portOfBit (CW.portBit w)) (CW.byte w)) else .error .z1NotZero
  else if CW.op w = 2#2 then
    if CW.z2 w = 0#56 then .ok (.receive (portOfBit (CW.portBit w))) else .error .z2NotZero
  else .error .op3

/-- The command a word is, if it is one. -/
def decode? (w : CmdWord) : Option Instr :=
  match decode w with
  | .ok i => some i
  | .error _ => none

/-- The `PORT` bit of a port (R51). -/
def bitOfPort : Port → BitVec 1
  | .A => 0#1
  | .B => 1#1

/-- The word of a command, its fields in the order of R52, R53 and R54, the most significant first. -/
def encode : Instr → CmdWord
  | .init p c => c.baud ++ (c.parity ++ (c.stopBits ++ (c.dataBits ++ (0#5 ++ (bitOfPort p ++ 0#2)))))
  | .transmit p b => 0#48 ++ (b ++ (0#5 ++ (bitOfPort p ++ 1#2)))
  | .receive p => 0#56 ++ (0#5 ++ (bitOfPort p ++ 2#2))

/-- The instruction the decoder reads from an opcode-table word: the table numbers the bits of the one 64-bit
command word as R51 does, and bits above `nbits` are 0. -/
def decodeTableWord (nbits w : Nat) : Option Instr :=
  decode? (BitVec.ofNat 64 (w % 2 ^ nbits))

end Sys2Proof
end

