-- ==== Sys2Proof/Config.lean ====
section
/-! DEFINITION. What the spec leaves open: the OPEN parameters of 00_scope.md R5 as plain data (`Setup`, held in
State so that a claim holds for each of their values), and the free values (`draw_N()` of 00_scope.md section 5.3),
constants with no body, so that no proof can know one. The parameters R5 gives a value stand in Machine/Params.lean. -/

namespace Sys2Proof

/-- `WIRING` (R5, D20): how the two ports' lines are connected. -/
inductive Wiring where
  /-- arrivals are an input of the model -/
  | free
  /-- each port's departures are the other port's arrivals (43 R113) -/
  | loopback
  deriving DecidableEq, Repr, Inhabited

/-- `OOR_BAUD_POLICY` (R5, 40_divisor.md R73, D15). -/
inductive OorPolicy where
  /-- the two divisor bytes are free values -/
  | draw
  /-- the formula in 32-bit unsigned arithmetic -/
  | wrap32
  deriving DecidableEq, Repr, Inhabited

/-- The two OPEN base addresses of 20_memory.md R31, of which the spec says only that the twelve addresses differ.
DESIGN CHOICE (log 7, safe): they are held as the lower base, the gap between the two register sets, and which port
is the lower one, which is every pair of bases R31 allows and no other. -/
structure RegMap where
  low    : Nat
  gap    : Nat
  bFirst : Bool
  deriving DecidableEq, Repr, Inhabited

/-- The parameters of the block and its test bench; no step changes them. -/
structure Setup where
  wiring    : Wiring
  oorPolicy : OorPolicy
  regMap    : RegMap
  deriving DecidableEq, Repr, Inhabited

/-- Which agent moves (10_state.md R22), with what its move carries. -/
inductive Turn where
  /-- the host hands its next command over, if the sequencer is `Idle` (60_exceptions.md R132) -/
  | host
  /-- the sequencer takes one step of the command in progress (10_state.md R20) -/
  | seq
  /-- `LineTx[p]` (43_transmit_receive.md R107) -/
  | lineTx (p : Port)
  /-- `LineRx[p]` (R108) -/
  | lineRx (p : Port)
  /-- the environment appends a character to a free line (10_state.md R21) -/
  | arrive (p : Port) (c : Byte)
  /-- the block reset is asserted (70_reset_and_hazards.md R140) -/
  | reset
  deriving DecidableEq, Repr, Inhabited

/-- The contents of one port's registers that R28 leaves unspecified after reset. -/
structure PortResidue where
  baudh : Byte
  baudl : Byte
  ctrlc : Byte
  txh   : Byte
  rxh   : Byte
  deriving DecidableEq, Repr, Inhabited

/-- Everything R28 leaves unspecified after reset: both ports' registers and the four latches. -/
structure Residue where
  portA : PortResidue
  portB : PortResidue
  port  : Port
  cfg   : PortConfig
  txb   : Byte
  rsp   : Byte
  deriving DecidableEq, Repr, Inhabited

/-- `draw_8()`: the n-th free byte, under no law (00_scope.md section 5.3). FREE VALUE, log 2. -/
opaque Config.freeByte : Nat → Byte

/-- How many characters a departure to a port of another line format delivers, none or any number
(43_transmit_receive.md R115). FREE VALUE, log 12. -/
opaque Config.freeCount : Nat → Nat

/-- Which agent moves, where nothing in State says so (10_state.md R22). FREE VALUE, log 1. -/
opaque Config.freeTurn : Nat → Turn

/-- What the unspecified registers hold after a reset during a run (10_state.md R28). FREE VALUE, log 4. -/
opaque Config.freeResidue : Nat → Residue

end Sys2Proof
end

