-- ==== Sys2Proof/Machine/State.lean ====
section
/-! DEFINITION. The state of UARTCORE (10_state.md R10 to R29) as plain data, the reasons a step can stop, and the
state after reset (R28). -/

namespace Sys2Proof.Machine

/-- The state of one port (R10, first table). -/
structure PortState where
  /-- `READY[p]`: false is Uninitialized, true is Ready (R13) -/
  ready   : Bool
  /-- `BAUDH[p]`: divisor bits 15:8 (R14) -/
  baudh   : Byte
  /-- `BAUDL[p]`: divisor bits 7:0 (R14) -/
  baudl   : Byte
  /-- `CTRLC[p]`: line format (R15) -/
  ctrlc   : Byte
  /-- `CTRLB[p]`: enables and the character-size high bit (R16) -/
  ctrlb   : Byte
  /-- `DRE[p]`: the transmit holding register is empty (R17) -/
  dre     : Bool
  /-- `RXC[p]`: a byte has fully arrived and is unread (R17) -/
  rxc     : Bool
  /-- `TXH[p]`: transmit holding register (R18) -/
  txh     : Byte
  /-- `RXH[p]`: receive holding register (R18) -/
  rxh     : Byte
  /-- `LINE_OUT[p]`: what the line took, oldest first (ghost, R21) -/
  lineOut : List Byte
  /-- `LINE_IN[p]`: what is still to arrive, in order (ghost, R21) -/
  lineIn  : List Byte
  deriving DecidableEq, Repr

/-- The two port units, whose states are disjoint (R10). -/
structure Ports where
  A : PortState
  B : PortState
  deriving DecidableEq, Repr

def Ports.get (u : Ports) : Port → PortState
  | .A => u.A
  | .B => u.B

def Ports.set (u : Ports) (p : Port) (x : PortState) : Ports :=
  match p with
  | .A => { u with A := x }
  | .B => { u with B := x }

/-- Where the sequencer is inside a command: `SEQ` less its port, which is the latch `PORT` (R20; log 11). -/
inductive Stage where
  | idle
  | init1
  | init2
  | init3
  | init4
  | init5
  | txPoll
  | txWrite
  | rxPoll
  | rxRead
  deriving DecidableEq, Repr

/-- `SEQ` as R20 lists it: 1 + 2 * (5 + 2 + 2) = 19 values. -/
inductive Seq where
  | idle
  | init1 (p : Port)
  | init2 (p : Port)
  | init3 (p : Port)
  | init4 (p : Port)
  | init5 (p : Port)
  | txPoll (p : Port)
  | txWrite (p : Port)
  | rxPoll (p : Port)
  | rxRead (p : Port)
  deriving DecidableEq, Repr

/-- The one response of a completed command (30_encoding.md R60). -/
inductive Response where
  /-- `INIT`, `TRANSMIT`: completion, no data -/
  | done
  /-- `RECEIVE`: the byte read -/
  | byte (v : Byte)
  deriving DecidableEq, Repr

/-- The state of the block (R10), with the parameters and inputs a run of it is given. -/
structure State where
  /-- the per-port state -/
  ports     : Ports
  /-- `SEQ` without its port (R20; log 11) -/
  stage     : Stage
  /-- latch `PORT`: the port of the command in progress, and the port of `SEQ` (R25, R20) -/
  port      : Port
  /-- latch `CFG`: the PortConfiguration of the `INIT` in progress (R25) -/
  cfg       : PortConfig
  /-- latch `TXB`: the byte of the `TRANSMIT` in progress (R25) -/
  txb       : Byte
  /-- latch `RSP`: the byte of the last completed `RECEIVE` (R25) -/
  rsp       : Byte
  /-- `FAULTED`, the model-only mark of a run in which a fault was raised (60_exceptions.md R124; log 5) -/
  faulted   : Bool
  /-- the responses the host has had, oldest first (30_encoding.md R60; the model's own record, log 16) -/
  responses : List Response
  /-- the commands the host will still hand over, in order (00_scope.md R8; the model's own input, log 8) -/
  cmds      : List CmdWord
  /-- which agent moves next, as far as it is given (R22; the model's own input, log 1) -/
  turns     : List Turn
  /-- the OPEN parameters of 00_scope.md R5 (log 6) -/
  setup     : Setup
  /-- how many free values have been used (the model's own counter, log 2) -/
  drawn     : Nat
  deriving DecidableEq, Repr

/-- The state of port `p`. -/
def State.unit (s : State) (p : Port) : PortState := s.ports.get p

/-- `SEQ` as R20 writes it. -/
def State.seq (s : State) : Seq :=
  match s.stage with
  | .idle => .idle
  | .init1 => .init1 s.port
  | .init2 => .init2 s.port
  | .init3 => .init3 s.port
  | .init4 => .init4 s.port
  | .init5 => .init5 s.port
  | .txPoll => .txPoll s.port
  | .txWrite => .txWrite s.port
  | .rxPoll => .rxPoll s.port
  | .rxRead => .rxRead s.port

/-- Why the machine stops with a fault: the closed set of two of 60_exceptions.md R124. -/
inductive Fault where
  /-- Raised by the acceptance of `TRANSMIT` or `RECEIVE` on a port with `READY` = 0, which the source calls
  undefined (43_transmit_receive.md R106). Safe: the hardware does something the model refuses to name. -/
  | uninitializedUse (p : Port)
  /-- Raised by the decoder on a reserved command word (30_encoding.md R57). Safe: the spec gives the word no
  meaning. -/
  | reservedCommand (cw : CmdWord)
  deriving DecidableEq, Repr

/-- Why there is no step. None but `runFaulted` is met by `step`. -/
inductive Refusal where
  /-- Raised by `exec` for an instruction that has no meaning yet. Safe. -/
  | notModelled (mnemonic : String)
  /-- Raised by a meaning run while another command is in progress, a breach of the host's duty for which R132 says
  "no move exists". Safe: `step` never does it. -/
  | commandInProgress
  /-- Raised by a bus access outside the twelve addresses of 20_memory.md R31, which R35 says does not occur. Safe:
  the sequencer never makes one. -/
  | unmappedAddress (a : Nat)
  /-- Raised by `step` on a state marked `FAULTED` for every move but a block reset: that run is over
  (60_exceptions.md R124, R129), and only R140 of 70_reset_and_hazards.md starts the block anew. Safe. -/
  | runFaulted
  deriving DecidableEq, Repr

/-- The outcome of a step of this machine. -/
abbrev Result := Host.Outcome State Fault Refusal

/-- One port after reset (R28). DESIGN CHOICE (log 3, unsafe): the five registers R28 calls unspecified are 0;
log 17: nothing is on the line yet. -/
def PortState.reset : PortState :=
  { ready := false, baudh := 0, baudl := 0, ctrlc := 0, ctrlb := 0, dre := true, rxc := false, txh := 0, rxh := 0,
    lineOut := [], lineIn := [] }

/-- The block right after reset (R28, R140, R141). DESIGN CHOICE (log 3, unsafe): the latches R28 calls unspecified
are 0 and port A; log 6: a free line, and the register sets at 0 and 6. -/
def State.reset : State :=
  { ports := { A := PortState.reset, B := PortState.reset }
    stage := .idle
    port := .A
    cfg := { baud := 0, dataBits := 0, stopBits := 0, parity := 0 }
    txb := 0
    rsp := 0
    faulted := false
    responses := []
    cmds := []
    turns := []
    setup := { wiring := .free, oorPolicy := .draw, regMap := { low := 0, gap := 0, bFirst := false } }
    drawn := 0 }

end Sys2Proof.Machine
end

