-- ==== Sys2Proof/Machine/Params.lean ====
section
/-! DEFINITION. The parameters that 00_scope.md R5 gives a value: the divisor's constants, the parity codes, the bit
positions of the register fields (D8 to D10) and the register offsets (D7). -/

namespace Sys2Proof.Machine

/-- `F_OSC`, in Hz. -/
def fOsc : Nat := 7372800
/-- `PRESCALE`. -/
def prescale : Nat := 16
/-- `BAUD_MIN`. -/
def baudMin : Nat := 1200
/-- `BAUD_MAX`. -/
def baudMax : Nat := 115200
/-- `BAUD_SET`. -/
def baudSet : List Nat := [1200, 2400, 4800, 9600, 19200, 38400, 57600, 115200]

/-- `PAR_NONE`; every code that is neither ODD nor EVEN acts as it (R56). -/
def parNone : Byte := 0
/-- `PAR_ODD`. -/
def parOdd : Byte := 1
/-- `PAR_EVEN`. -/
def parEven : Byte := 2

/-- `RXC_BIT` of `STATUS`. -/
def rxcBit : Nat := 7
/-- `DRE_BIT` of `STATUS`. -/
def dreBit : Nat := 5
/-- `RXEN_BIT` of `CTRLB`. -/
def rxenBit : Nat := 4
/-- `TXEN_BIT` of `CTRLB`. -/
def txenBit : Nat := 3
/-- `CHSZ2_BIT` of `CTRLB`. -/
def chsz2Bit : Nat := 2
/-- `PM_HI_BIT` of `CTRLC`. -/
def pmHiBit : Nat := 5
/-- `PM_LO_BIT` of `CTRLC`. -/
def pmLoBit : Nat := 4
/-- `SBS_BIT` of `CTRLC`. -/
def sbsBit : Nat := 3
/-- `CHSZ1_BIT` of `CTRLC`. -/
def chsz1Bit : Nat := 2
/-- `CHSZ0_BIT` of `CTRLC`. -/
def chsz0Bit : Nat := 1

/-- The six bus registers of a port (20_memory.md R31). -/
inductive Reg where
  | status
  | ctrlb
  | ctrlc
  | baudh
  | baudl
  | data
  deriving DecidableEq, Repr

/-- `OFF_REG` (R31, D7). -/
def offset : Reg → Nat
  | .status => 0
  | .ctrlb => 1
  | .ctrlc => 2
  | .baudh => 3
  | .baudl => 4
  | .data => 5

end Sys2Proof.Machine
end

