-- ==== Sys2Proof/Machine/Flags.lean ====
section
/-! DEFINITION. The flags and the fields of the enable register: the `STATUS` byte a read returns (10_state.md R17),
the bits the polls test (43_transmit_receive.md R101, R104), the enables (10_state.md R16). There are no condition
codes (R29). -/

namespace Sys2Proof.Machine

/-- `(RXC << RXC_BIT) | (DRE << DRE_BIT)`, every other bit 0 (R17). -/
def statusByte (rxc dre : Bool) : Byte :=
  ((BitVec.ofBool rxc).setWidth 8 <<< rxcBit) ||| ((BitVec.ofBool dre).setWidth 8 <<< dreBit)

/-- Bit `DRE_BIT` of a status byte, the only bit `TxPoll` tests (R101). -/
def statusDre (v : Byte) : Bool := v.getLsbD dreBit

/-- Bit `RXC_BIT` of a status byte, the only bit `RxPoll` tests (R104). -/
def statusRxc (v : Byte) : Bool := v.getLsbD rxcBit

/-- `CTRLB[p].RXEN` (R16). -/
def PortState.rxen (u : PortState) : Bool := u.ctrlb.getLsbD rxenBit

/-- `CTRLB[p].TXEN` (R16). -/
def PortState.txen (u : PortState) : Bool := u.ctrlb.getLsbD txenBit

/-- `CTRLB[p].CHSZ2`, the character-size high bit (R16). -/
def PortState.chsz2 (u : PortState) : Bool := u.ctrlb.getLsbD chsz2Bit

/-- `CTRLC[p].PM` as (high bit, low bit) (R15). -/
def PortState.pm (u : PortState) : Bool × Bool := (u.ctrlc.getLsbD pmHiBit, u.ctrlc.getLsbD pmLoBit)

/-- `CTRLC[p].SBS` (R15). -/
def PortState.sbs (u : PortState) : Bool := u.ctrlc.getLsbD sbsBit

/-- `CTRLC[p].CHSZ[1:0]` as a number (R15). -/
def PortState.chsz (u : PortState) : Nat :=
  2 * (u.ctrlc.getLsbD chsz1Bit).toNat + (u.ctrlc.getLsbD chsz0Bit).toNat

end Sys2Proof.Machine
end

