-- ==== Sys2Proof/Machine/Operands.lean ====
section
/-! DEFINITION. The pure functions of the operands: the baud-rate divisor calculator (40_divisor.md R70 to R78), the
line-format encoder (41_line_format.md R80 to R88), the effective configuration read back from the registers (R87),
the character size (43_transmit_receive.md R110), and the register addresses (20_memory.md R31). -/

namespace Sys2Proof.Machine

/-! ### The divisor (40_divisor.md) -/

/-- The accepted range (R70), both ends included. -/
def inRange (b : Nat) : Bool := decide (baudMin ≤ b) && decide (b ≤ baudMax)

/-- `DIV(B) = floor(F_OSC / (PRESCALE * B)) - 1` (R70); meant for an accepted `B` only. -/
def div (b : Nat) : Nat := fOsc / (prescale * b) - 1

/-- The `wrap32` alternative of R73, in 32-bit unsigned arithmetic; none where `16 * B` wraps to 0, for which the
result is still a draw. -/
def divWrap32 (b : BitVec 32) : Option DivWord :=
  let t := BitVec.ofNat 32 prescale * b
  if t = 0#32 then none else some ((BitVec.ofNat 32 fOsc / t - 1#32).setWidth 16)

/-- The divisor `INIT` uses: `DIV` in range (R70), and outside it what the policy gives (R73). None says that the two
bytes are free values. -/
def divisorFor (policy : OorPolicy) (b : BitVec 32) : Option DivWord :=
  if inRange b.toNat then some (BitVec.ofNat 16 (div b.toNat))
  else
    match policy with
    | .draw => none
    | .wrap32 => divWrap32 b

/-- `HI(d) = d[15:8]` (R74). -/
def hiByte (d : DivWord) : Byte := d.extractLsb' 8 8

/-- `LO(d) = d[7:0]` (R74). -/
def loByte (d : DivWord) : Byte := d.extractLsb' 0 8

/-! ### The line format (41_line_format.md) -/

/-- `ENC_DB` (R80): the data-bits code; every value that is not 5, 6 or 7 is coded as 8. -/
def encDb (n : Byte) : BitVec 2 :=
  if n = 5#8 then 0b00#2
  else if n = 6#8 then 0b01#2
  else if n = 7#8 then 0b10#2
  else 0b11#2

/-- `ENC_PAR` (R82) as `PM[1:0]`: ODD (1,1), EVEN (1,0), every other code (0,0). -/
def encPar (y : Byte) : BitVec 2 :=
  if y = parOdd then 0b11#2
  else if y = parEven then 0b10#2
  else 0b00#2

/-- `ENC_SB` (R83): clear for one stop bit, set for every other value. -/
def encSb (s : Byte) : BitVec 1 := if s = 1#8 then 0#1 else 1#1

/-- `FMT(config)` (R84): the byte written to `CTRLC[p]`; bits 7, 6 and 0 are 0. -/
def fmt (c : PortConfig) : Byte :=
  ((encPar c.parity).setWidth 8 <<< pmLoBit) ||| ((encSb c.stopBits).setWidth 8 <<< sbsBit)
    ||| ((encDb c.dataBits).setWidth 8 <<< chsz0Bit)

/-- `ENB` (R85): `RXEN` and `TXEN` set, every other bit 0, `CHSZ2` among them (R81). -/
def enb : Byte := (1#8 <<< rxenBit) ||| (1#8 <<< txenBit)

/-! ### The effective configuration (41_line_format.md R87) -/

/-- The parity a `PM` code means (10_state.md R15). -/
inductive Parity where
  | none
  | even
  | odd
  deriving DecidableEq, Repr

/-- The effective configuration of a port, and its `LINEFMT` (R87, 43 R113). -/
structure Effective where
  divisor  : Nat
  dataBits : Nat
  parity   : Parity
  stopBits : Nat
  deriving DecidableEq, Repr

/-- `EFFECTIVE(p).divisor`. -/
def PortState.divisor (u : PortState) : Nat := u.baudh.toNat * 256 + u.baudl.toNat

/-- `EFFECTIVE(p).data_bits`: no meaning for `CHSZ2` = 1, which `INIT` never writes (R87, U7). -/
def PortState.dataBits (u : PortState) : Option Nat := if u.chsz2 then none else some (5 + u.chsz)

/-- `EFFECTIVE(p).parity`: no meaning for `PM` = (0,1), which `INIT` never writes (R87, U7). -/
def PortState.parity (u : PortState) : Option Parity :=
  match u.pm with
  | (false, false) => some .none
  | (true, false) => some .even
  | (true, true) => some .odd
  | (false, true) => none

/-- `EFFECTIVE(p).stop_bits`. -/
def PortState.stopBits (u : PortState) : Nat := if u.sbs then 2 else 1

/-- `EFFECTIVE(p)` (R87); none where R87 leaves it undefined. -/
def PortState.effective (u : PortState) : Option Effective :=
  match u.dataBits, u.parity with
  | some n, some y => some { divisor := u.divisor, dataBits := n, parity := y, stopBits := u.stopBits }
  | _, _ => none

/-- `2^n - 1` for a character of `n` bits (43 R110). -/
def charMask (n : Nat) : Byte := BitVec.ofNat 8 (2 ^ n - 1)

/-- The two ports have the same line format, each of them a format R87 gives a meaning (43 R113). -/
def sameFormat (u v : PortState) : Bool := u.effective.isSome && decide (u.effective = v.effective)

/-! ### Addresses (20_memory.md R31) -/

/-- `BASE_p`. -/
def base (m : RegMap) : Port → Nat
  | .A => if m.bFirst then m.low + 6 + m.gap else m.low
  | .B => if m.bFirst then m.low else m.low + 6 + m.gap

/-- `addr(p, REG) = BASE_p + OFF_REG`. -/
def addr (m : RegMap) (p : Port) (r : Reg) : Nat := base m p + offset r

/-- The register at an offset from a base. -/
def regAt : Nat → Option Reg
  | 0 => some .status
  | 1 => some .ctrlb
  | 2 => some .ctrlc
  | 3 => some .baudh
  | 4 => some .baudl
  | 5 => some .data
  | _ => none

/-- The register of port `p` at address `a`. -/
def locateIn (m : RegMap) (p : Port) (a : Nat) : Option (Port × Reg) :=
  if base m p ≤ a then (regAt (a - base m p)).map (fun r => (p, r)) else none

/-- The register an address reaches; none for an address that is not one of the twelve. -/
def locate (m : RegMap) (a : Nat) : Option (Port × Reg) :=
  match locateIn m .A a with
  | some x => some x
  | none => locateIn m .B a

end Sys2Proof.Machine
end

