-- ==== Sys2Proof/Machine/Ops.lean ====
section
/-! DEFINITION. The shared operations: the register bus (20_memory.md R30 to R46), free values, the completion of a
command (00_scope.md section 5.3, `respond`), the model fault (60_exceptions.md R124), the block reset (70 R140), and
the frame of a command (acceptance at `Idle`, then one sequencer step at a time). The hardware has no exception entry
and no return from one (60_exceptions.md R128, R129), so there is no operation for either. -/

namespace Sys2Proof.Machine

/-! ### Updates of the state -/

/-- The state of port `p` changed by `f`, nothing else. -/
def State.updUnit (s : State) (p : Port) (f : PortState → PortState) : State :=
  { s with ports := s.ports.set p (f (s.ports.get p)) }

/-- `SEQ <- x(PORT)` (R20). -/
def State.goto (s : State) (x : Stage) : State := { s with stage := x }

/-- `respond(v)`: the command completes, the host has its one response, `SEQ <- Idle` (00_scope.md 5.3, 30 R60). -/
def State.respond (s : State) (r : Response) : State :=
  { s with stage := .idle, responses := s.responses ++ [r] }

/-- `RSP <- v` (R25). -/
def State.setRsp (s : State) (v : Byte) : State := { s with rsp := v }

/-- The host's remaining commands are `l`. -/
def State.setCmds (s : State) (l : List CmdWord) : State := { s with cmds := l }

/-- The turns given are `l`. -/
def State.setTurns (s : State) (l : List Turn) : State := { s with turns := l }

/-- `n` free values have been used. -/
def State.setDrawn (s : State) (n : Nat) : State := { s with drawn := n }

/-- `READY[p] <- 1` (42 R95). -/
def State.setReady (s : State) (p : Port) : State := s.updUnit p fun u => { u with ready := true }

/-- `draw_8()`: the next free byte (00_scope.md 5.3; log 2). -/
def State.drawByte (s : State) : Byte × State := (Config.freeByte s.drawn, s.setDrawn (s.drawn + 1))

/-- The mark of a run in which a fault was raised (60 R124); nothing else changes. -/
def State.markFaulted (s : State) : State := { s with faulted := true }

/-- `raise Fault(r)` (60 R124): the machine stops, and the state it stops in is unchanged but for `FAULTED` (log 5). -/
def raise (r : Fault) : Result := .fault r

/-! ### The register bus (20_memory.md) -/

/-- What a read of register `r` of port `p` returns (R42), the state not yet touched. -/
def regValue (p : Port) (r : Reg) (s : State) : Byte :=
  let u := s.unit p
  match r with
  | .status => statusByte u.rxc u.dre
  | .ctrlb => u.ctrlb
  | .ctrlc => u.ctrlc
  | .baudh => u.baudh
  | .baudl => u.baudl
  | .data => u.rxh

/-- The state after a read of register `r` of port `p` (R42): a read of `DATA` clears `RXC`, no other read has an
effect. -/
def regReadEffect (p : Port) (r : Reg) (s : State) : State :=
  match r with
  | .data => s.updUnit p fun u => { u with rxc := false }
  | .status => s
  | .ctrlb => s
  | .ctrlc => s
  | .baudh => s
  | .baudl => s

/-- The state after a write of `v` to register `r` of port `p` (R42): a write of `DATA` loads `TXH` and clears
`DRE`, a write of `STATUS` does nothing, each other write stores the whole byte. A write of `DATA` while `DRE` is 0
replaces `TXH`, as R42's table has it; the sequencer never makes one (R46; log 21). -/
def regWrite (p : Port) (r : Reg) (v : Byte) (s : State) : State :=
  match r with
  | .status => s
  | .ctrlb => s.updUnit p fun u => { u with ctrlb := v }
  | .ctrlc => s.updUnit p fun u => { u with ctrlc := v }
  | .baudh => s.updUnit p fun u => { u with baudh := v }
  | .baudl => s.updUnit p fun u => { u with baudl := v }
  | .data => s.updUnit p fun u => { u with txh := v, dre := false }

/-- The byte a read of address `a` would return; none where there is no register. -/
def peek (s : State) (a : Nat) : Option Byte :=
  (locate s.setup.regMap a).map fun x => regValue x.1 x.2 s

/-- `MemRead(a, 1)`: the value and the state after the read; none where there is no register. -/
def memRead (a : Nat) (s : State) : Option (Byte × State) :=
  (locate s.setup.regMap a).map fun x => (regValue x.1 x.2 s, regReadEffect x.1 x.2 s)

/-- `MemWrite(a, 1, v)`: the state after the write; none where there is no register. -/
def memWrite (a : Nat) (v : Byte) (s : State) : Option State :=
  (locate s.setup.regMap a).map fun x => regWrite x.1 x.2 v s

/-- `MemRead(addr(p, r), 1)` by the sequencer, and what it does with the value. -/
def busRead (p : Port) (r : Reg) (s : State) (k : Byte → State → Result) : Result :=
  match memRead (addr s.setup.regMap p r) s with
  | some x => k x.1 x.2
  | none => .refused (.unmappedAddress (addr s.setup.regMap p r))

/-- `MemWrite(addr(p, r), 1, v)` by the sequencer, and what it does next. -/
def busWrite (p : Port) (r : Reg) (v : Byte) (s : State) (k : State → Result) : Result :=
  match memWrite (addr s.setup.regMap p r) v s with
  | some t => k t
  | none => .refused (.unmappedAddress (addr s.setup.regMap p r))

/-! ### The divisor byte of an `INIT` step -/

/-- The byte half of the divisor that a step of `INIT` writes: `half` of the divisor where there is one, a free byte
where R73 leaves it to a draw (log 22). -/
def divisorByte (half : DivWord → Byte) (s : State) : Byte × State :=
  match divisorFor s.setup.oorPolicy s.cfg.baud with
  | some d => (half d, s)
  | none => s.drawByte

/-! ### The frame of a command -/

/-- The command in progress, from `SEQ` and the latches (R20, R25); none at `Idle`. -/
def State.running (s : State) : Option Instr :=
  match s.stage with
  | .idle => none
  | .init1 => some (.init s.port s.cfg)
  | .init2 => some (.init s.port s.cfg)
  | .init3 => some (.init s.port s.cfg)
  | .init4 => some (.init s.port s.cfg)
  | .init5 => some (.init s.port s.cfg)
  | .txPoll => some (.transmit s.port s.txb)
  | .txWrite => some (.transmit s.port s.txb)
  | .rxPoll => some (.receive s.port)
  | .rxRead => some (.receive s.port)

/-- One step of command `i`: its acceptance when the sequencer is `Idle`, its next sequencer step when `i` is the
command in progress (D27; log 10). A command handed over while another one runs has no move (60 R132; log 8). -/
def commandStep (i : Instr) (s : State) (accept advance : State → Result) : Result :=
  if s.stage = .idle then accept s
  else if s.running = some i then advance s
  else .refused .commandInProgress

/-- Acceptance of `INIT` (42 R90): `PORT <- p`, `CFG <- config`, `SEQ <- Init1(p)`. -/
def State.latchInit (s : State) (p : Port) (c : PortConfig) : State :=
  { s with port := p, cfg := c, stage := .init1 }

/-- Acceptance of `TRANSMIT` on a Ready port (43 R100): `PORT <- p`, `TXB <- b`, `SEQ <- TxPoll(p)`. -/
def State.latchTransmit (s : State) (p : Port) (b : Byte) : State :=
  { s with port := p, txb := b, stage := .txPoll }

/-- Acceptance of `RECEIVE` on a Ready port (43 R103): `PORT <- p`, `SEQ <- RxPoll(p)`. -/
def State.latchReceive (s : State) (p : Port) : State :=
  { s with port := p, stage := .rxPoll }

/-- The acceptance check of `TRANSMIT` and `RECEIVE` (43 R106): an Uninitialized port is a fault, before any state
has changed. -/
def requireReady (p : Port) (s : State) (k : State → Result) : Result :=
  if (s.unit p).ready then k s else raise (.uninitializedUse p)

/-! ### The block reset (70 R140) -/

/-- One port after a reset during a run: the values R28 gives, free values for the registers it calls unspecified
(log 4), the line as R28 says: nothing sent yet, and the characters of a free line still to come. -/
def PortState.afterReset (u : PortState) (w : Wiring) (x : PortResidue) : PortState :=
  { ready := false, baudh := x.baudh, baudl := x.baudl, ctrlc := x.ctrlc, ctrlb := 0, dre := true, rxc := false,
    txh := x.txh, rxh := x.rxh, lineOut := [],
    lineIn := match w with
      | .free => u.lineIn
      | .loopback => [] }

/-- The block reset (70 R140, 10 R28): the whole state of the block at once, both ports and the mark `FAULTED` among
it, a command in progress abandoned without a response. The host's commands, its record of responses and the
parameters are not the block's and stay (log 4). -/
def State.blockReset (s : State) : State :=
  let x := Config.freeResidue s.drawn
  { s with
    ports := { A := s.ports.A.afterReset s.setup.wiring x.portA, B := s.ports.B.afterReset s.setup.wiring x.portB }
    stage := .idle
    port := x.port
    cfg := x.cfg
    txb := x.txb
    rsp := x.rsp
    faulted := false
    drawn := s.drawn + 1 }

end Sys2Proof.Machine
end

