-- ==== Sys2Proof/Machine/Init.lean ====
section
/-! DEFINITION. `INIT(p, config)` (42_init.md R90 to R99). -/

namespace Sys2Proof.Machine

/-- The five steps of `INIT`, each one register write (R91 to R95). -/
def initAdvance (s : State) : Result :=
  match s.stage with
  | .init1 => busWrite s.port .ctrlb 0 s fun t => .next (t.goto .init2)
  | .init2 =>
    let x := divisorByte hiByte s
    busWrite s.port .baudh x.1 x.2 fun t => .next (t.goto .init3)
  | .init3 =>
    let x := divisorByte loByte s
    busWrite s.port .baudl x.1 x.2 fun t => .next (t.goto .init4)
  | .init4 => busWrite s.port .ctrlc (fmt s.cfg) s fun t => .next (t.goto .init5)
  | .init5 => busWrite s.port .ctrlb enb s fun t => .next ((t.setReady s.port).respond .done)
  | .idle => .refused .commandInProgress
  | .txPoll => .refused .commandInProgress
  | .txWrite => .refused .commandInProgress
  | .rxPoll => .refused .commandInProgress
  | .rxRead => .refused .commandInProgress

/-- `INIT(p, config)` (R90): accepted at `Idle` whatever `READY` is (R96), then the five writes. It never faults and
never waits. -/
def execInit (p : Port) (c : PortConfig) (s : State) : Result :=
  commandStep (.init p c) s (fun t => .next (t.latchInit p c)) initAdvance

end Sys2Proof.Machine
end

