-- ==== Sys2Proof/Machine/Transfer.lean ====
section
/-! DEFINITION. `TRANSMIT(p, b)` and `RECEIVE(p)` (43_transmit_receive.md R100 to R106). -/

namespace Sys2Proof.Machine

/-- The two steps of `TRANSMIT` (R101, R102): poll `STATUS` until `DRE` is set, then write the latched byte. -/
def transmitAdvance (s : State) : Result :=
  match s.stage with
  | .txPoll => busRead s.port .status s fun v t => .next (t.goto (if statusDre v then .txWrite else .txPoll))
  | .txWrite => busWrite s.port .data s.txb s fun t => .next (t.respond .done)
  | .idle => .refused .commandInProgress
  | .init1 => .refused .commandInProgress
  | .init2 => .refused .commandInProgress
  | .init3 => .refused .commandInProgress
  | .init4 => .refused .commandInProgress
  | .init5 => .refused .commandInProgress
  | .rxPoll => .refused .commandInProgress
  | .rxRead => .refused .commandInProgress

/-- `TRANSMIT(p, b)` (R100): accepted at `Idle` on a Ready port, a fault on an Uninitialized one (R106). -/
def execTransmit (p : Port) (b : Byte) (s : State) : Result :=
  commandStep (.transmit p b) s (fun t => requireReady p t fun u => .next (u.latchTransmit p b)) transmitAdvance

/-- The two steps of `RECEIVE` (R104, R105): poll `STATUS` until `RXC` is set, then read the byte and answer it. -/
def receiveAdvance (s : State) : Result :=
  match s.stage with
  | .rxPoll => busRead s.port .status s fun v t => .next (t.goto (if statusRxc v then .rxRead else .rxPoll))
  | .rxRead => busRead s.port .data s fun v t => .next ((t.setRsp v).respond (.byte v))
  | .idle => .refused .commandInProgress
  | .init1 => .refused .commandInProgress
  | .init2 => .refused .commandInProgress
  | .init3 => .refused .commandInProgress
  | .init4 => .refused .commandInProgress
  | .init5 => .refused .commandInProgress
  | .txPoll => .refused .commandInProgress
  | .txWrite => .refused .commandInProgress

/-- `RECEIVE(p)` (R103): accepted at `Idle` on a Ready port, a fault on an Uninitialized one (R106). -/
def execReceive (p : Port) (s : State) : Result :=
  commandStep (.receive p) s (fun t => requireReady p t fun u => .next (u.latchReceive p)) receiveAdvance

end Sys2Proof.Machine
end

