-- ==== Sys2Proof/Machine/Dispatch.lean ====
section
/-! DEFINITION. One arm per command. -/

namespace Sys2Proof.Machine

def exec (i : Instr) (s : State) : Host.Outcome State Fault Refusal :=
  match i with
  | .init p c => Sys2Proof.Machine.execInit p c s
  | .transmit p b => Sys2Proof.Machine.execTransmit p b s
  | .receive p => Sys2Proof.Machine.execReceive p s

end Sys2Proof.Machine
end

