-- ==== Sys2Proof/Machine/Line.lean ====
section
/-! DEFINITION. The line-side agents (43_transmit_receive.md R107 to R110, R113, R115) and the arrivals of a free
line (10_state.md R21). An agent that has no step leaves the state as it is (log 20). -/

namespace Sys2Proof.Machine

/-- Character `c` as the character size of port `p` passes it: its low `n` bits (R110). Where `CHSZ2` = 1, which
`INIT` never writes, R87 gives no size and the character is a free value (U7; log 13). -/
def sized (p : Port) (c : Byte) (s : State) : Byte × State :=
  match (s.unit p).dataBits with
  | some n => (c &&& charMask n, s)
  | none => s.drawByte

/-- `LINE_IN[p] <- append(LINE_IN[p], cs)`. -/
def State.appendIn (s : State) (p : Port) (cs : List Byte) : State :=
  s.updUnit p fun u => { u with lineIn := u.lineIn ++ cs }

/-- What arrives at a port of another line format (R115): none, or any number of free bytes (log 12). -/
def State.garble (s : State) (q : Port) : State :=
  let n := Config.freeCount s.drawn
  (s.appendIn q ((List.range n).map fun k => Config.freeByte (s.drawn + 1 + k))).setDrawn (s.drawn + 1 + n)

/-- `deliver(p, c)` (R113): the other port's line receives `c` if the two line formats are equal. -/
def State.deliver (s : State) (p : Port) (c : Byte) : State :=
  if sameFormat (s.unit p) (s.unit p.other) then s.appendIn p.other [c] else s.garble p.other

/-- `LineTx[p]` has a step (R107). -/
def lineTxEnabled (p : Port) (s : State) : Bool := (s.unit p).txen && !(s.unit p).dre

/-- `LineTx[p]` (R107): it takes the byte in `TXH[p]`, and the holding register is empty again. -/
def lineTx (p : Port) (s : State) : State :=
  if lineTxEnabled p s then
    let x := sized p (s.unit p).txh s
    let t := x.2.updUnit p fun u => { u with lineOut := u.lineOut ++ [x.1] }
    let d := match s.setup.wiring with
      | .free => t
      | .loopback => t.deliver p x.1
    d.updUnit p fun u => { u with dre := true }
  else s

/-- `LineRx[p]` (R108, R109): the next character is deposited if the receiver is enabled and no byte waits, and
discarded otherwise, which sets no flag; the older byte stays (D17; log 14). -/
def lineRx (p : Port) (s : State) : State :=
  match (s.unit p).lineIn with
  | [] => s
  | c :: rest =>
    let t := s.updUnit p fun u => { u with lineIn := rest }
    if (s.unit p).rxen && !(s.unit p).rxc then
      let x := sized p c t
      x.2.updUnit p fun u => { u with rxh := x.1, rxc := true }
    else t

/-- The environment appends a character to a free line (R21, R108); on a loopback line only `LineTx` does. -/
def arrive (p : Port) (c : Byte) (s : State) : State :=
  match s.setup.wiring with
  | .free => s.appendIn p [c]
  | .loopback => s

end Sys2Proof.Machine
end

