-- ==== Sys2Proof/Machine/Turns.lean ====
section
/-! DEFINITION. The moves of the agents (10_state.md R22) and the choice of the one that moves: the host hands a
command word to an `Idle` sequencer (60_exceptions.md R132), the sequencer takes one step of the command in progress
(10_state.md R20), the line-side agents and the environment move. There is no fetch from a memory (20_memory.md R41):
the command word the host hands over is what the machine decodes. -/

namespace Sys2Proof.Machine

/-- The host's move: at `Idle` it hands its next command over, which is decoded (30 R64) and accepted; a reserved word
is a fault (30 R57). While a command is in progress, or with no command left, the host waits (60 R132; log 8). DESIGN
CHOICE (log 26): a word that meets a fault is not used up, and neither is the host's turn. -/
def hostTurn (s : State) : Result :=
  match s.stage, s.cmds with
  | .idle, w :: rest =>
    match decode w with
    | .ok i => exec i (s.setCmds rest)
    | .error _ => raise (.reservedCommand w)
  | _, _ => .next s

/-- The sequencer's move: the next step of the command in progress; at `Idle` it has none (R20). -/
def seqTurn (s : State) : Result :=
  match s.running with
  | some i => exec i s
  | none => .next s

/-- The move of the agent whose turn it is (R22). -/
def takeTurn : Turn → State → Result
  | .host, s => hostTurn s
  | .seq, s => seqTurn s
  | .lineTx p, s => .next (lineTx p s)
  | .lineRx p, s => .next (lineRx p s)
  | .arrive p c, s => .next (arrive p c s)
  | .reset, s => .next s.blockReset

/-- Which agent moves: the head of `turns`, and a free value when none is given (R22; log 1). -/
def State.nextTurn (s : State) : Turn :=
  match s.turns with
  | t :: _ => t
  | [] => Config.freeTurn s.drawn

/-- The state with that turn used up. -/
def State.useTurn (s : State) : State :=
  match s.turns with
  | _ :: ts => s.setTurns ts
  | [] => s.setDrawn (s.drawn + 1)

/-- The next atomic step of the run. A run marked `FAULTED` is over (60 R124): no agent of R22 moves any more. The
block reset, which is no agent's step, may be asserted at any time (70 R140), in a `FAULTED` state too (log 5). -/
def oneStep (s : State) : Result :=
  if s.faulted = true ∧ s.nextTurn ≠ .reset then .refused .runFaulted else takeTurn s.nextTurn s.useTurn

/-- The word placed as the host's next command, with the sequencer `Idle` and the turn the host's, so that the next
step hands it over (log 9). -/
def placeCommand (s : State) (w : CmdWord) : State :=
  { s with stage := .idle, faulted := false, cmds := w :: s.cmds, turns := .host :: s.turns }

end Sys2Proof.Machine
end

