-- ==== Sys2Proof/Machine/Step.lean ====
section
/-! DEFINITION. One step of the machine: one atomic step of one agent (10_state.md R22, D27). -/

namespace Sys2Proof.Machine

/-- The step (Turns.lean, `oneStep`). -/
def step (s : State) : Host.Outcome State Fault Refusal := oneStep s

/-- The state whose next step hands over and accepts the command word `w` (log 9). -/
def State.withFetchWord (s : State) (nbits w : Nat) : State :=
  placeCommand s (BitVec.ofNat 64 (w % 2 ^ nbits))

end Sys2Proof.Machine
end

