-- ==== Sys2Proof/Safety.lean ====
section
/-! DEFINITION. The terms claims are made in: runs of given moves, the state a run is left in with its `FAULTED` mark
(60_exceptions.md R124), the end of a run (00_scope.md R8), the fairness premise `FAIR = true` (00_scope.md R5,
43_transmit_receive.md R112), and the invariant of the block (10_state.md R19, R23; 20_memory.md R46). -/

namespace Sys2Proof.Safety

open Sys2Proof.Machine

/-! ### Runs -/

/-- The run of the given moves, in order, stopping at the first fault or refusal. -/
def runTurns : List Turn → State → Result
  | [], s => .next s
  | m :: ms, s =>
    match takeTurn m s with
    | .next t => runTurns ms t
    | .fault r => .fault r
    | .refused r => .refused r

/-- The first `n` moves of an endless schedule. -/
def moves (f : Nat → Turn) (n : Nat) : List Turn := (List.range n).map f

/-- The state the run is left in by one step: the next state, and at a fault the same state with the mark `FAULTED`
set, nothing else (60_exceptions.md R124, R128). DESIGN CHOICE (log 26), on which the spec is silent: the word that met
the fault stays at the head of `cmds` and the turn at the head of `turns`, so the next turn there is the host's again, a
reset is a step only where it is put at the head of `turns` from outside, and after it the same word comes first. -/
def afterStep (s : State) : State :=
  match step s with
  | .next t => t
  | .fault _ => s.markFaulted
  | .refused _ => s

/-- Along the moves `ms` from `s` the agent whose turn is `m` takes no step: each of its turns finds it without one
(`hasStep` false). Its turns themselves may come as often as they like (log 20). -/
def TakesNoStep (m : Turn) (hasStep : State → Prop) : List Turn → State → Prop
  | [], _ => True
  | x :: xs, s => (x = m → ¬ hasStep s) ∧ ∀ t, takeTurn x s = .next t → TakesNoStep m hasStep xs t

/-- The run is over (00_scope.md R8): no further command, `SEQ` is `Idle`, no byte waits in a transmit holding
register, no fault was raised. -/
def runOver (s : State) : Bool :=
  s.cmds.isEmpty && decide (s.stage = .idle) && s.ports.A.dre && s.ports.B.dre && !s.faulted

/-! ### Fairness (a premise of claims, never assumed by the machine; log 18) -/

/-- `LineTx[p]` is weakly fair along the schedule `f` from `s`: if from some point on it always has a step, it takes
one (R112). -/
def FairLineTx (f : Nat → Turn) (s : State) (p : Port) : Prop :=
  ∀ n, (∀ m, n ≤ m → ∃ t, runTurns (moves f m) s = .next t ∧ lineTxEnabled p t = true) → ∃ m, n ≤ m ∧ f m = .lineTx p

/-- `LineRx[p]` is weakly fair along the schedule `f` from `s` (R113). -/
def FairLineRx (f : Nat → Turn) (s : State) (p : Port) : Prop :=
  ∀ n, (∀ m, n ≤ m → ∃ t, runTurns (moves f m) s = .next t ∧ (t.unit p).lineIn ≠ []) → ∃ m, n ≤ m ∧ f m = .lineRx p

/-- The sequencer keeps taking steps, and the block is not reset (the spec bounds no step's time, R153). -/
def SequencerRuns (f : Nat → Turn) : Prop :=
  (∀ n, ∃ m, n ≤ m ∧ f m = .seq) ∧ ∀ n, f n ≠ .reset

/-- The host keeps offering its next command (R132). -/
def HostRuns (f : Nat → Turn) : Prop := ∀ n, ∃ m, n ≤ m ∧ f m = .host

/-! ### The invariant -/

/-- The sequencer is between the first and the last register write of an `INIT` of port `p`. -/
def configuring (s : State) (p : Port) : Bool :=
  decide (s.port = p) &&
    match s.stage with
    | .init2 => true
    | .init3 => true
    | .init4 => true
    | .init5 => true
    | .idle => false
    | .init1 => false
    | .txPoll => false
    | .txWrite => false
    | .rxPoll => false
    | .rxRead => false

/-- A byte `INIT` can have written to `CTRLC`: bits 7, 6 and 0 are 0 and `PM` is not (0,1) (10_state.md R23,
41_line_format.md R84). -/
def formatByte (v : Byte) : Bool := decide (v &&& 0xC1#8 = 0#8) && !(v.getLsbD pmLoBit && !v.getLsbD pmHiBit)

/-- What holds of port `p` in every state a run reaches. -/
structure PortInv (s : State) (p : Port) : Prop where
  /-- R23, R126: `CTRLB` is 0x18 on a Ready port that no `INIT` is configuring, and 0x00 otherwise -/
  enables : (s.unit p).ctrlb = if (s.unit p).ready && !configuring s p then 0x18#8 else 0x00#8
  /-- R23: after the first `INIT` the unnamed bits of `CTRLC` are 0 -/
  format : (s.unit p).ready = true → formatByte (s.unit p).ctrlc = true
  /-- R19, R141: no byte waits to be sent before `INIT` -/
  sendReady : (s.unit p).dre = false → (s.unit p).ready = true
  /-- R19, R141: no byte waits to be read before `INIT` -/
  readReady : (s.unit p).rxc = true → (s.unit p).ready = true

/-- The invariant of the block. -/
structure Inv (s : State) : Prop where
  portA : PortInv s .A
  portB : PortInv s .B
  /-- R106: only a Ready port is transmitted on or received from -/
  inUse : (s.stage = .txPoll ∨ s.stage = .txWrite ∨ s.stage = .rxPoll ∨ s.stage = .rxRead) →
    (s.unit s.port).ready = true
  /-- R46: `DATA` is written only with `DRE` = 1 -/
  writeEmpty : s.stage = .txWrite → (s.unit s.port).dre = true
  /-- R46: `DATA` is read only with `RXC` = 1 -/
  readFull : s.stage = .rxRead → (s.unit s.port).rxc = true
  /-- R92: the high divisor byte is written before `Init3` -/
  highWritten : (s.stage = .init3 ∨ s.stage = .init4 ∨ s.stage = .init5) →
    ∀ d, divisorFor s.setup.oorPolicy s.cfg.baud = some d → (s.unit s.port).baudh = hiByte d
  /-- R92: the low divisor byte is written before `Init4` -/
  lowWritten : (s.stage = .init4 ∨ s.stage = .init5) →
    ∀ d, divisorFor s.setup.oorPolicy s.cfg.baud = some d → (s.unit s.port).baudl = loByte d
  /-- R93: the format is written before `Init5` -/
  formatWritten : s.stage = .init5 → (s.unit s.port).ctrlc = fmt s.cfg

end Sys2Proof.Safety
end

