-- ==== Sys2Proof/Certificates/Slice0/Obligations.lean ====
section
/-! DEFINITION. The statements for the provers: UARTCORE's encoding, its pure functions, its register bus, what each
command does and leaves alone, what a step runs, and the rules of the whole block. -/

open Sys2Proof Sys2Proof.Machine Sys2Proof.Safety

/-! ### Encoding (30_encoding.md) -/

/-- R51 to R54, R64: no bit of a command is dropped. -/
def Obligations.DecodeInvertsEncode : Prop := ∀ i : Instr, decode (encode i) = .ok i

/-- R64: a word is at most one command, and it is that command's word. -/
def Obligations.EncodeInvertsDecode : Prop := ∀ (w : CmdWord) (i : Instr), decode w = .ok i → encode i = w

/-- R52 to R54: `CW` as a sum of shifted fields. -/
def Obligations.EncodedWordIsFieldSum : Prop :=
  (∀ p c, (encode (.init p c)).toNat =
    c.baud.toNat * 2 ^ 32 + c.parity.toNat * 2 ^ 24 + c.stopBits.toNat * 2 ^ 16 + c.dataBits.toNat * 2 ^ 8
      + (if p = .B then 1 else 0) * 4) ∧
  (∀ p b, (encode (.transmit p b)).toNat = b.toNat * 2 ^ 8 + (if p = .B then 1 else 0) * 4 + 1) ∧
  (∀ p, (encode (.receive p)).toNat = (if p = .B then 1 else 0) * 4 + 2)

/-- R52 to R54, opcode_table.json: the match and mask of each row accept exactly that command's words. -/
def Obligations.OpcodeTableMatchAndMask : Prop :=
  ∀ w : CmdWord,
    ((∃ p c, decode w = .ok (.init p c)) ↔ w &&& 0x00000000000000FB#64 = 0x0000000000000000#64) ∧
    ((∃ p b, decode w = .ok (.transmit p b)) ↔ w &&& 0xFFFFFFFFFFFF00FB#64 = 0x0000000000000001#64) ∧
    ((∃ p, decode w = .ok (.receive p)) ↔ w &&& 0xFFFFFFFFFFFFFFFB#64 = 0x0000000000000002#64)

/-- R57, R64: what makes a word reserved, in the order of the decoding procedure. -/
def Obligations.ReservedWordsByReason : Prop :=
  ∀ w : CmdWord,
    (decode w = .error .z0NotZero ↔ w.toNat / 2 ^ 3 % 2 ^ 5 ≠ 0) ∧
    (decode w = .error .op3 ↔ w.toNat / 2 ^ 3 % 2 ^ 5 = 0 ∧ w.toNat % 4 = 3) ∧
    (decode w = .error .z1NotZero ↔ w.toNat / 2 ^ 3 % 2 ^ 5 = 0 ∧ w.toNat % 4 = 1 ∧ w.toNat / 2 ^ 16 ≠ 0) ∧
    (decode w = .error .z2NotZero ↔ w.toNat / 2 ^ 3 % 2 ^ 5 = 0 ∧ w.toNat % 4 = 2 ∧ w.toNat / 2 ^ 8 ≠ 0)

/-- 95_test_vectors.md T6: words of every format, written out, and what they decode to. -/
def Obligations.WrittenWordsDecode : Prop :=
  decode 0x0000258000010800#64 = .ok (.init .A { baud := 9600, dataBits := 8, stopBits := 1, parity := 0 }) ∧
  decode 0x0001C20002020704#64 = .ok (.init .B { baud := 115200, dataBits := 7, stopBits := 2, parity := 2 }) ∧
  decode 0x00004B0007030904#64 = .ok (.init .B { baud := 19200, dataBits := 9, stopBits := 3, parity := 7 }) ∧
  decode 0x0000000000004105#64 = .ok (.transmit .B 0x41) ∧
  decode 0x0000000000000001#64 = .ok (.transmit .A 0x00) ∧
  decode 0x0000000000000006#64 = .ok (.receive .B) ∧
  decode 0x0000000000000003#64 = .error .op3 ∧
  decode 0x00000000000000F9#64 = .error .z0NotZero ∧
  decode 0x8000000000000001#64 = .error .z1NotZero ∧
  decode 0x0000000000000102#64 = .error .z2NotZero

/-! ### The divisor (40_divisor.md) -/

/-- R71: the quotient is truncated, never rounded; the two worked examples. -/
def Obligations.DivisorTruncatesQuotient : Prop :=
  (∀ b, 1200 ≤ b → b ≤ 115200 →
    div b = 7372800 / (16 * b) - 1 ∧ (div b + 1) * (16 * b) ≤ 7372800 ∧ 7372800 < (div b + 2) * (16 * b)) ∧
  div 100000 = 3 ∧ div 31250 = 13

/-- R72 (a) to (e): equivalent form and bounds on the accepted range. -/
def Obligations.DivisorBounds : Prop :=
  (∀ b, 1200 ≤ b → b ≤ 115200 →
    div b = 460800 / b - 1 ∧ 3 ≤ div b ∧ div b ≤ 383 ∧ 4 ≤ 460800 / b ∧
    (div b / 256 = 0 ∨ div b / 256 = 1) ∧ (div b / 256 = 1 ↔ b ≤ 1792)) ∧
  ∀ b b', 1200 ≤ b → b ≤ b' → b' ≤ 115200 → div b' ≤ div b

/-- R76: the divisors of the supported set, and their two bytes. -/
def Obligations.SupportedBaudRates : Prop :=
  baudSet.map (fun b => (b, div b, hiByte (BitVec.ofNat 16 (div b)), loByte (BitVec.ofNat 16 (div b)))) =
    [(1200, 383, 0x01#8, 0x7F#8), (2400, 191, 0x00#8, 0xBF#8), (4800, 95, 0x00#8, 0x5F#8),
     (9600, 47, 0x00#8, 0x2F#8), (19200, 23, 0x00#8, 0x17#8), (38400, 11, 0x00#8, 0x0B#8),
     (57600, 7, 0x00#8, 0x07#8), (115200, 3, 0x00#8, 0x03#8)]

/-- R73: outside the accepted range the divisor is a draw under `draw`, and under `wrap32` the formula in 32-bit
unsigned arithmetic, a draw only where `16 * B` wraps to 0. In range no policy matters. -/
def Obligations.OutOfRangeDivisorPolicies : Prop :=
  ∀ b : BitVec 32,
    (1200 ≤ b.toNat ∧ b.toNat ≤ 115200 →
      ∀ w, divisorFor w b = some (BitVec.ofNat 16 (7372800 / (16 * b.toNat) - 1))) ∧
    (b.toNat < 1200 ∨ 115200 < b.toNat →
      divisorFor .draw b = none ∧
      (16 * b.toNat % 2 ^ 32 = 0 → divisorFor .wrap32 b = none) ∧
      (16 * b.toNat % 2 ^ 32 ≠ 0 → divisorFor .wrap32 b =
        some (BitVec.ofNat 16 ((7372800 / (16 * b.toNat % 2 ^ 32) + (2 ^ 32 - 1)) % 2 ^ 32))))

/-! ### The line format (41_line_format.md) -/

/-- R80: the data-bits codes, injective on 5 to 8, every other value coded as 8. -/
def Obligations.DataBitsEncoding : Prop :=
  encDb 5 = 0b00#2 ∧ encDb 6 = 0b01#2 ∧ encDb 7 = 0b10#2 ∧ encDb 8 = 0b11#2 ∧
  ∀ n : Byte, n ≠ 5 → n ≠ 6 → n ≠ 7 → encDb n = encDb 8

/-- R82: ODD (1,1), EVEN (1,0), NONE and every unrecognised code (0,0); the pair (0,1) is never produced. -/
def Obligations.ParityEncoding : Prop :=
  encPar 1 = 0b11#2 ∧ encPar 2 = 0b10#2 ∧ (∀ y : Byte, y ≠ 1 → y ≠ 2 → encPar y = 0b00#2) ∧
  (∀ y : Byte, encPar y ≠ 0b01#2) ∧ encPar 0 = 0b00#2 ∧ encPar 7 = 0b00#2

/-- R83: 1 clears the bit, every other value sets it. -/
def Obligations.StopBitsEncoding : Prop :=
  encSb 1 = 0#1 ∧ (∀ s : Byte, s ≠ 1 → encSb s = 1#1) ∧ encSb 2 = 1#1 ∧ encSb 3 = 1#1 ∧ encSb 0 = 1#1

/-- R84, R85, R88: the byte written to `CTRLC` is the sum of the three codes at their positions, each depending on
its own operand alone; the byte that enables the port is 0x18. -/
def Obligations.FormatByteIsFieldSum : Prop :=
  (∀ c : PortConfig, (fmt c).toNat =
    16 * (encPar c.parity).toNat + 8 * (encSb c.stopBits).toNat + 2 * (encDb c.dataBits).toNat) ∧
  enb = 0x18#8

/-- R87: what the registers of a port hold after `INIT` reads back as the operand, or as its default. -/
def Obligations.EffectiveConfigurationReadsBack : Prop :=
  ∀ (u : PortState) (c : PortConfig), u.ctrlc = fmt c → u.ctrlb = 0x18#8 →
    u.effective = some
      { divisor := u.baudh.toNat * 256 + u.baudl.toNat
        dataBits := if c.dataBits = 5 ∨ c.dataBits = 6 ∨ c.dataBits = 7 then c.dataBits.toNat else 8
        parity := if c.parity = 1 then .odd else if c.parity = 2 then .even else .none
        stopBits := if c.stopBits = 1 then 1 else 2 }

/-! ### The register bus (20_memory.md) -/

/-- R31, R35: `addr(p, REG) = BASE_p + OFF_REG`, twelve different addresses; every pair of disjoint bases is one the
parameter can take; a read or write of any other address reaches nothing. The form of the base parameter is the
model's choice, log 7. -/
def Obligations.TwelveDistinctAddresses : Prop :=
  (∀ m p r q r', addr m p r = addr m q r' → p = q ∧ r = r') ∧
  (∀ a b : Nat, (∀ i j, i < 6 → j < 6 → a + i ≠ b + j) → ∃ m, base m .A = a ∧ base m .B = b) ∧
  (∀ (s : State) (a : Nat), (∀ p r, a ≠ addr s.setup.regMap p r) →
    memRead a s = none ∧ ∀ v, memWrite a v s = none)

/-- R42, R17, T9: what a read or write of each register returns, stores and does besides; the status byte of the four
flag combinations. The accesses to `DATA` that no run makes follow R42's table, the model's choice of log 21. -/
def Obligations.BusAccessTable : Prop :=
  (statusByte false false = 0x00#8 ∧ statusByte false true = 0x20#8 ∧ statusByte true false = 0x80#8 ∧
    statusByte true true = 0xA0#8) ∧
  ∀ (s : State) (p : Port) (v : Byte),
    memRead (addr s.setup.regMap p .status) s = some (statusByte (s.unit p).rxc (s.unit p).dre, s) ∧
    memWrite (addr s.setup.regMap p .status) v s = some s ∧
    memRead (addr s.setup.regMap p .data) s =
      some ((s.unit p).rxh, { s with ports := s.ports.set p { s.unit p with rxc := false } }) ∧
    memWrite (addr s.setup.regMap p .data) v s =
      some { s with ports := s.ports.set p { s.unit p with txh := v, dre := false } } ∧
    memRead (addr s.setup.regMap p .ctrlb) s = some ((s.unit p).ctrlb, s) ∧
    memWrite (addr s.setup.regMap p .ctrlb) v s =
      some { s with ports := s.ports.set p { s.unit p with ctrlb := v } } ∧
    memRead (addr s.setup.regMap p .ctrlc) s = some ((s.unit p).ctrlc, s) ∧
    memWrite (addr s.setup.regMap p .ctrlc) v s =
      some { s with ports := s.ports.set p { s.unit p with ctrlc := v } } ∧
    memRead (addr s.setup.regMap p .baudh) s = some ((s.unit p).baudh, s) ∧
    memWrite (addr s.setup.regMap p .baudh) v s =
      some { s with ports := s.ports.set p { s.unit p with baudh := v } } ∧
    memRead (addr s.setup.regMap p .baudl) s = some ((s.unit p).baudl, s) ∧
    memWrite (addr s.setup.regMap p .baudl) v s =
      some { s with ports := s.ports.set p { s.unit p with baudl := v } }

/-! ### INIT (42_init.md) -/

/-- R90, R96: `INIT` is accepted at `Idle`, whatever the state of either port; only the latches and `SEQ` change. -/
def Obligations.InitAccepted : Prop :=
  ∀ (s : State) (p : Port) (c : PortConfig), s.stage = .idle →
    exec (.init p c) s = .next { s with port := p, cfg := c, stage := .init1 }

/-- R91, R94, R95: `Init1` clears the enable register; `Init5` writes 0x18, makes the port Ready, answers without data
and returns to `Idle`, in one step. Nothing else changes in either. The record of responses is the model's, log 16. -/
def Obligations.InitDisablesFirstEnablesLast : Prop :=
  ∀ s : State,
    (s.stage = .init1 → exec (.init s.port s.cfg) s =
      .next { s with ports := s.ports.set s.port { s.unit s.port with ctrlb := 0x00#8 }, stage := .init2 }) ∧
    (s.stage = .init5 → exec (.init s.port s.cfg) s =
      .next { s with ports := s.ports.set s.port { s.unit s.port with ctrlb := 0x18#8, ready := true },
                     responses := s.responses ++ [.done], stage := .idle })

/-- R92, R73: `Init2` and `Init3` write the high and then the low byte of the divisor, a free byte each where the spec
leaves it to a draw. Nothing else changes but the count of free values. That each step draws its own byte is deduced,
log 22. -/
def Obligations.InitWritesDivisorBytes : Prop :=
  ∀ s : State,
    (s.stage = .init2 → ∃ v n, exec (.init s.port s.cfg) s =
      .next { s with ports := s.ports.set s.port { s.unit s.port with baudh := v }, stage := .init3, drawn := n } ∧
      ∀ d, divisorFor s.setup.oorPolicy s.cfg.baud = some d → v.toNat = d.toNat / 256 ∧ n = s.drawn) ∧
    (s.stage = .init3 → ∃ v n, exec (.init s.port s.cfg) s =
      .next { s with ports := s.ports.set s.port { s.unit s.port with baudl := v }, stage := .init4, drawn := n } ∧
      ∀ d, divisorFor s.setup.oorPolicy s.cfg.baud = some d → v.toNat = d.toNat % 256 ∧ n = s.drawn)

/-- R93: `Init4` stores `FMT(CFG)` whole; the previous content of `CTRLC` is not read. -/
def Obligations.InitWritesFormat : Prop :=
  ∀ s : State, s.stage = .init4 →
    exec (.init s.port s.cfg) s =
      .next { s with ports := s.ports.set s.port { s.unit s.port with ctrlc := fmt s.cfg }, stage := .init5 }

/-- R90, R99: from `Idle`, `INIT` completes in its acceptance and exactly five sequencer steps, with its net effect
and no other; the two divisor bytes are those of `DIV` in the accepted range. One `exec` a step and the record of
responses are the model's forms, logs 10 and 16. -/
def Obligations.InitCompletesInFiveSteps : Prop :=
  ∀ (s : State) (p : Port) (c : PortConfig), s.stage = .idle →
    ∃ s1 s2 s3 s4 s5 hi lo n,
      exec (.init p c) s = .next s1 ∧ s1.seq = .init1 p ∧
      exec (.init p c) s1 = .next s2 ∧ s2.seq = .init2 p ∧
      exec (.init p c) s2 = .next s3 ∧ s3.seq = .init3 p ∧
      exec (.init p c) s3 = .next s4 ∧ s4.seq = .init4 p ∧
      exec (.init p c) s4 = .next s5 ∧ s5.seq = .init5 p ∧
      exec (.init p c) s5 = .next
        { s with
          ports := s.ports.set p
            { s.unit p with baudh := hi, baudl := lo, ctrlc := fmt c, ctrlb := 0x18#8, ready := true }
          port := p, cfg := c, stage := .idle, responses := s.responses ++ [.done], drawn := n } ∧
      (1200 ≤ c.baud.toNat → c.baud.toNat ≤ 115200 →
        hi.toNat = (7372800 / (16 * c.baud.toNat) - 1) / 256 ∧
        lo.toNat = (7372800 / (16 * c.baud.toNat) - 1) % 256 ∧ n = s.drawn)

/-- R75: when `INIT` completes, whatever line-side steps came between its five, the two baud-rate registers recombine
to `DIV(baud)`. -/
def Obligations.InitRecombinesDivisor : Prop :=
  ∀ s : State, Inv s → s.stage = .init5 → 1200 ≤ s.cfg.baud.toNat → s.cfg.baud.toNat ≤ 115200 →
    ∃ t, exec (.init s.port s.cfg) s = .next t ∧
      (t.unit s.port).baudh.toNat * 256 + (t.unit s.port).baudl.toNat = 7372800 / (16 * s.cfg.baud.toNat) - 1

/-- R99: the same for everything `INIT` leaves behind, whatever line-side steps came between. -/
def Obligations.InitNetEffectUnderInterleaving : Prop :=
  ∀ s : State, Inv s → s.stage = .init5 →
    ∃ t, exec (.init s.port s.cfg) s = .next t ∧ t.stage = .idle ∧
      (t.unit s.port).ctrlc = fmt s.cfg ∧ (t.unit s.port).ctrlb = 0x18#8 ∧ (t.unit s.port).ready = true ∧
      ∀ d, divisorFor s.setup.oorPolicy s.cfg.baud = some d →
        (t.unit s.port).baudh.toNat = d.toNat / 256 ∧ (t.unit s.port).baudl.toNat = d.toNat % 256

/-- R98: no step of `INIT(p, ...)` changes the other port, and it may be issued whatever the other port's state is. -/
def Obligations.InitLeavesOtherPort : Prop :=
  (∀ (s t : State) (p : Port) (c : PortConfig), exec (.init p c) s = .next t → t.unit p.other = s.unit p.other) ∧
  ∀ (s : State) (p : Port) (c : PortConfig) (u : PortState), s.stage = .idle →
    ∃ t, exec (.init p c) { s with ports := s.ports.set p.other u } = .next t ∧ t.unit p.other = u

/-- R97: no step of `INIT` writes the holding registers, the two status flags or the lines; and the frame of `INIT`:
the other latches, the host's inputs and the parameters stay. -/
def Obligations.InitPreservesPendingBytes : Prop :=
  ∀ (s t : State) (p : Port) (c : PortConfig), exec (.init p c) s = .next t →
    ∀ q, (t.unit q).txh = (s.unit q).txh ∧ (t.unit q).rxh = (s.unit q).rxh ∧ (t.unit q).dre = (s.unit q).dre ∧
      (t.unit q).rxc = (s.unit q).rxc ∧ (t.unit q).lineOut = (s.unit q).lineOut ∧
      (t.unit q).lineIn = (s.unit q).lineIn ∧ t.txb = s.txb ∧ t.rsp = s.rsp ∧ t.faulted = s.faulted ∧
      t.cmds = s.cmds ∧ t.turns = s.turns ∧ t.setup = s.setup

/-- R42, R90: the frame of `INIT` on the register bus: every address but the one its step stores to reads as before,
and an acceptance changes what no address reads as. -/
def Obligations.InitBusFrame : Prop :=
  ∀ (s t : State) (p : Port) (c : PortConfig), exec (.init p c) s = .next t → ∀ a : Nat,
    (s.stage = .idle → peek t a = peek s a) ∧
    (s.stage = .init1 → a ≠ addr s.setup.regMap p .ctrlb → peek t a = peek s a) ∧
    (s.stage = .init2 → a ≠ addr s.setup.regMap p .baudh → peek t a = peek s a) ∧
    (s.stage = .init3 → a ≠ addr s.setup.regMap p .baudl → peek t a = peek s a) ∧
    (s.stage = .init4 → a ≠ addr s.setup.regMap p .ctrlc → peek t a = peek s a) ∧
    (s.stage = .init5 → a ≠ addr s.setup.regMap p .ctrlb → peek t a = peek s a)

/-! ### TRANSMIT and RECEIVE (43_transmit_receive.md) -/

/-- R100, R103, R106: at `Idle` both are accepted on a Ready port, which changes the latches and `SEQ` alone, and fault
on an Uninitialized one; only the command's own port is looked at. -/
def Obligations.TransferAcceptance : Prop :=
  ∀ (s : State) (p : Port), s.stage = .idle →
    ((s.unit p).ready = true →
      (∀ b, exec (.transmit p b) s = .next { s with port := p, txb := b, stage := .txPoll }) ∧
      exec (.receive p) s = .next { s with port := p, stage := .rxPoll }) ∧
    ((s.unit p).ready = false →
      (∀ b, exec (.transmit p b) s = .fault (.uninitializedUse p)) ∧
      exec (.receive p) s = .fault (.uninitializedUse p))

/-- R101, R104: a poll of `TRANSMIT` tests `DRE` alone and one of `RECEIVE` tests `RXC` alone; each goes on exactly when
the flag is set, and changes `SEQ` alone. -/
def Obligations.PollsTestOneFlag : Prop :=
  ∀ s : State,
    (s.stage = .txPoll → exec (.transmit s.port s.txb) s =
      .next { s with stage := if (s.unit s.port).dre then .txWrite else .txPoll }) ∧
    (s.stage = .rxPoll → exec (.receive s.port) s =
      .next { s with stage := if (s.unit s.port).rxc then .rxRead else .rxPoll })

/-- R102: `TxWrite` loads the latched byte into `TXH`, clears `DRE` and completes the command; no pending byte is
overwritten. The record of responses is the model's, log 16. -/
def Obligations.TransmitWritesByte : Prop :=
  ∀ s : State, s.stage = .txWrite →
    exec (.transmit s.port s.txb) s =
      .next { s with ports := s.ports.set s.port { s.unit s.port with txh := s.txb, dre := false },
                     responses := s.responses ++ [.done], stage := .idle } ∧
    (Inv s → (s.unit s.port).dre = true)

/-- R100: on a Ready port whose holding register is empty, `TRANSMIT` completes in its acceptance and two sequencer
steps, with its net effect and no other. One `exec` a step and the record of responses are the model's forms, logs 10
and 16. -/
def Obligations.TransmitCompletesWhenEmpty : Prop :=
  ∀ (s : State) (p : Port) (b : Byte), s.stage = .idle → (s.unit p).ready = true → (s.unit p).dre = true →
    ∃ s1 s2,
      exec (.transmit p b) s = .next s1 ∧ s1.seq = .txPoll p ∧
      exec (.transmit p b) s1 = .next s2 ∧ s2.seq = .txWrite p ∧
      exec (.transmit p b) s2 = .next
        { s with ports := s.ports.set p { s.unit p with txh := b, dre := false },
                 port := p, txb := b, stage := .idle, responses := s.responses ++ [.done] }

/-- R105: `RxRead` latches `RXH` in `RSP`, answers it unchanged, clears `RXC` and completes the command; the byte is
one that was waiting. The record of responses is the model's, log 16. -/
def Obligations.ReceiveReadsByte : Prop :=
  ∀ s : State, s.stage = .rxRead →
    exec (.receive s.port) s =
      .next { s with ports := s.ports.set s.port { s.unit s.port with rxc := false }, rsp := (s.unit s.port).rxh,
                     responses := s.responses ++ [.byte (s.unit s.port).rxh], stage := .idle } ∧
    (Inv s → (s.unit s.port).rxc = true)

/-- R103: on a Ready port where a byte waits, `RECEIVE` completes in its acceptance and two sequencer steps, with its
net effect and no other. One `exec` a step and the record of responses are the model's forms, logs 10 and 16. -/
def Obligations.ReceiveCompletesWhenFull : Prop :=
  ∀ (s : State) (p : Port), s.stage = .idle → (s.unit p).ready = true → (s.unit p).rxc = true →
    ∃ s1 s2,
      exec (.receive p) s = .next s1 ∧ s1.seq = .rxPoll p ∧
      exec (.receive p) s1 = .next s2 ∧ s2.seq = .rxRead p ∧
      exec (.receive p) s2 = .next
        { s with ports := s.ports.set p { s.unit p with rxc := false }, port := p, rsp := (s.unit p).rxh,
                 stage := .idle, responses := s.responses ++ [.byte (s.unit p).rxh] }

/-- R42, R44, R100 to R105: the frame of `TRANSMIT` and `RECEIVE`. `TRANSMIT` stores to `DATA` of its port, whose store
no address reads as and which shows as `DRE` in `STATUS`; `RECEIVE` stores nothing, and its read of `DATA` shows as `RXC`
in `STATUS`; every other address reads as before, and an acceptance or a poll changes what no address reads as. Of the
port's own state `TRANSMIT` changes `TXH` and `DRE` alone, `RECEIVE` `RXC` alone; the other port, the other command's
latches, the host's inputs and the parameters stay. -/
def Obligations.TransferFrame : Prop :=
  (∀ (s t : State) (p : Port) (b : Byte), exec (.transmit p b) s = .next t →
    (∀ a, (s.stage ≠ .txWrite → peek t a = peek s a) ∧
      (a ≠ addr s.setup.regMap p .status → peek t a = peek s a)) ∧
    t.unit p.other = s.unit p.other ∧
    t.unit p = { s.unit p with txh := (t.unit p).txh, dre := (t.unit p).dre } ∧
    t.cfg = s.cfg ∧ t.rsp = s.rsp ∧ t.faulted = s.faulted ∧ t.cmds = s.cmds ∧ t.turns = s.turns ∧
    t.setup = s.setup ∧ t.drawn = s.drawn) ∧
  (∀ (s t : State) (p : Port), exec (.receive p) s = .next t →
    (∀ a, (s.stage ≠ .rxRead → peek t a = peek s a) ∧
      (a ≠ addr s.setup.regMap p .status → peek t a = peek s a)) ∧
    t.unit p.other = s.unit p.other ∧ t.unit p = { s.unit p with rxc := (t.unit p).rxc } ∧
    t.cfg = s.cfg ∧ t.txb = s.txb ∧ t.faulted = s.faulted ∧ t.cmds = s.cmds ∧ t.turns = s.turns ∧
    t.setup = s.setup ∧ t.drawn = s.drawn)

/-- R132: a command executed while another one is in progress has no move. The model's own refusal, log 8. -/
def Obligations.OverlappingCommandRefused : Prop :=
  ∀ (s : State) (i j : Instr), s.running = some j → i ≠ j → exec i s = .refused .commandInProgress

/-! ### The step -/

/-- R132, 30 R64: on the host's turn at `Idle`, a step is `exec` of the command the handed-over word decodes to, with
the turn and the word used up; a reserved word is a fault (R57). The list of turns and the host's list of commands are
the model's choices, logs 1 and 8. -/
def Obligations.StepRunsDecodedCommand : Prop :=
  ∀ (s : State) (ms : List Turn) (w : CmdWord) (ws : List CmdWord),
    s.faulted = false → s.turns = .host :: ms → s.stage = .idle → s.cmds = w :: ws →
    (∀ i, decode w = .ok i → step s = exec i { s with turns := ms, cmds := ws }) ∧
    (∀ e, decode w = .error e → step s = .fault (.reservedCommand w))

/-- R20, R117, R132: on the sequencer's turn a step is `exec` of the command in progress, with the turn used up, and
nothing at `Idle`; on the host's turn the host waits while a command is in progress, for either port, and when it has
no command left. That a turn without a step changes nothing else is the model's choice, logs 1, 8 and 20. -/
def Obligations.StepContinuesOrWaits : Prop :=
  ∀ (s : State) (ms : List Turn), s.faulted = false →
    (∀ i, s.turns = .seq :: ms → s.running = some i → step s = exec i { s with turns := ms }) ∧
    (s.turns = .seq :: ms → s.stage = .idle → step s = .next { s with turns := ms }) ∧
    (s.turns = .host :: ms → s.stage ≠ .idle ∨ s.cmds = [] → step s = .next { s with turns := ms })

/-- Log 9: the step after `withFetchWord` runs the command of that word and no other. -/
def Obligations.FetchedWordRuns : Prop :=
  ∀ (s : State) (w : Nat) (i : Instr), decodeTableWord 64 w = some i →
    step (s.withFetchWord 64 w) = exec i { s with stage := .idle, faulted := false }

/-! ### The lines (43_transmit_receive.md) -/

/-- R107, R110: on a free line, `LineTx` with a step takes the low `n` bits of the waiting byte and sets `DRE`, and
changes nothing else; without a step it changes nothing. That the turn without a step changes nothing is the model's
choice, log 20. -/
def Obligations.LineTxTakesByte : Prop :=
  ∀ (s : State) (p : Port),
    (lineTxEnabled p s = true → s.setup.wiring = .free → ∀ n, (s.unit p).dataBits = some n →
      takeTurn (.lineTx p) s = .next { s with ports := s.ports.set p { s.unit p with
        lineOut := (s.unit p).lineOut ++ [BitVec.ofNat 8 ((s.unit p).txh.toNat % 2 ^ n)], dre := true } }) ∧
    ((s.unit p).ctrlb.getLsbD 3 = false ∨ (s.unit p).dre = true → takeTurn (.lineTx p) s = .next s)

/-- R113, R115: on a loopback line, `LineTx` also appends the character to the other port's arrivals if the two line
formats are equal, and otherwise any list of characters, which is a free value; no register or flag of the other port
changes. The form of the free arrivals is the model's choice, log 12. -/
def Obligations.LoopbackDelivery : Prop :=
  ∀ (s : State) (p : Port) (n : Nat), lineTxEnabled p s = true → s.setup.wiring = .loopback →
    (s.unit p).dataBits = some n →
    ∃ (cs : List Byte) (k : Nat),
      takeTurn (.lineTx p) s = .next { s with
        ports := (s.ports.set p { s.unit p with
            lineOut := (s.unit p).lineOut ++ [BitVec.ofNat 8 ((s.unit p).txh.toNat % 2 ^ n)], dre := true }).set p.other
          { s.unit p.other with lineIn := (s.unit p.other).lineIn ++ cs }
        drawn := k } ∧
      (∀ e, (s.unit p).effective = some e → (s.unit p.other).effective = some e →
        cs = [BitVec.ofNat 8 ((s.unit p).txh.toNat % 2 ^ n)] ∧ k = s.drawn)

/-- R21, R108, R109, R110: an arrival appends exactly its character to a free line and nothing to a loopback line;
`LineRx` deposits the low `n` bits of the next character if the receiver is enabled and no byte waits, and discards it
otherwise, silently; with nothing to arrive it changes nothing. That the turn without a step changes nothing is the
model's choice, log 20; the arrival as a turn is log 17; on an overrun the older byte stays, log 14. -/
def Obligations.LineRxDepositsOrDiscards : Prop :=
  ∀ (s : State) (p : Port),
    (∀ c cs n, (s.unit p).lineIn = c :: cs → (s.unit p).ctrlb.getLsbD 4 = true → (s.unit p).rxc = false →
      (s.unit p).dataBits = some n →
      takeTurn (.lineRx p) s = .next { s with ports := s.ports.set p { s.unit p with
        lineIn := cs, rxh := BitVec.ofNat 8 (c.toNat % 2 ^ n), rxc := true } }) ∧
    (∀ c cs, (s.unit p).lineIn = c :: cs → (s.unit p).ctrlb.getLsbD 4 = false ∨ (s.unit p).rxc = true →
      takeTurn (.lineRx p) s = .next { s with ports := s.ports.set p { s.unit p with lineIn := cs } }) ∧
    ((s.unit p).lineIn = [] → takeTurn (.lineRx p) s = .next s) ∧
    (∀ c, s.setup.wiring = .free → takeTurn (.arrive p c) s =
      .next { s with ports := s.ports.set p { s.unit p with lineIn := (s.unit p).lineIn ++ [c] } }) ∧
    (∀ c, s.setup.wiring = .loopback → takeTurn (.arrive p c) s = .next s)

/-- R111, R110, transmit side: in one step of a port with `n` data bits, what has left and what waits to leave, each
byte as its low `n` bits, grows by exactly the byte of a completing `TRANSMIT` on that port, at the end; nothing is
lost, reordered or invented. -/
def Obligations.TransmittedBytesInOrder : Prop :=
  ∀ (s t : State) (p : Port) (n : Nat), Inv s → step s = .next t → s.nextTurn ≠ .reset →
    (s.unit p).dataBits = some n →
    (t.unit p).lineOut ++ (if (t.unit p).dre then [] else [BitVec.ofNat 8 ((t.unit p).txh.toNat % 2 ^ n)]) =
      (s.unit p).lineOut ++ (if (s.unit p).dre then [] else [BitVec.ofNat 8 ((s.unit p).txh.toNat % 2 ^ n)]) ++
        (if s.nextTurn = .seq ∧ s.seq = .txWrite p then [BitVec.ofNat 8 (s.txb.toNat % 2 ^ n)] else [])

/-- R109, R111, R105, receive side: in one step the waiting byte of a port stays as it is, or is the head of its
arrivals just deposited where none waited, or is answered to the host and waits no longer; the last step of a `RECEIVE`
on the port is always the third, so no byte is answered twice. The record of responses is the model's, log 16. -/
def Obligations.ReceivedBytesInOrder : Prop :=
  ∀ (s t : State) (p : Port) (n : Nat), Inv s → step s = .next t → s.nextTurn ≠ .reset →
    (s.unit p).dataBits = some n →
    (¬ (s.nextTurn = .seq ∧ s.seq = .rxRead p) ∧
      (t.unit p).rxc = (s.unit p).rxc ∧ (t.unit p).rxh = (s.unit p).rxh) ∨
    ((s.unit p).rxc = false ∧ (t.unit p).rxc = true ∧ s.nextTurn = .lineRx p ∧
      ∃ c, (s.unit p).lineIn = c :: (t.unit p).lineIn ∧ (t.unit p).rxh = BitVec.ofNat 8 (c.toNat % 2 ^ n)) ∨
    ((s.unit p).rxc = true ∧ (t.unit p).rxc = false ∧ s.nextTurn = .seq ∧ s.seq = .rxRead p ∧
      t.responses = s.responses ++ [.byte (s.unit p).rxh])

/-! ### Rules of the whole block -/

/-- R122, R123, R35, R132: until a fault is raised, a step always has a move. That a turn without a step still answers
a next state is the model's choice, logs 8 and 20. -/
def Obligations.StepNeverRefuses : Prop := ∀ (s : State) (r : Refusal), s.faulted = false → step s ≠ .refused r

/-- R124, R127, R123: a step faults exactly when the host hands over a reserved word, or a `TRANSMIT` or `RECEIVE` on
an Uninitialized port, and with that reason; `INIT` never does. The fault outcome and the host's list of commands are
the model's choices, logs 5 and 8. -/
def Obligations.FaultsExactlyAtAcceptance : Prop :=
  ∀ (s : State) (f : Fault), step s = .fault f ↔
    (s.faulted = false ∧ s.nextTurn = .host ∧ s.stage = .idle ∧ ∃ w ws, s.cmds = w :: ws ∧
      ((f = .reservedCommand w ∧ ∀ i, decode w ≠ .ok i) ∨
       (∃ p, f = .uninitializedUse p ∧ (s.unit p).ready = false ∧
         ((∃ b, decode w = .ok (.transmit p b)) ∨ decode w = .ok (.receive p)))))

/-- R124, R128: a fault changes nothing but the mark `FAULTED`, which no later step of an agent clears; R140: a block
reset, which is no agent's step, clears it. The refusal of a further step is the model's choice, log 5, and that the
word and the turn that met the fault are not used up is another, log 26. -/
def Obligations.FaultOnlyMarksTheRun : Prop :=
  (∀ (s : State) (f : Fault), step s = .fault f → afterStep s = { s with faulted := true }) ∧
  (∀ s : State, s.faulted = true → s.nextTurn ≠ .reset → step s = .refused .runFaulted ∧ afterStep s = s) ∧
  (∀ s : State, s.faulted = true → s.nextTurn = .reset →
    step s = takeTurn .reset s.useTurn ∧ (afterStep s).faulted = false) ∧
  ∀ s t : State, step s = .next t → t.faulted = false

/-- R13, R95, R131: `READY` is set by the last step of `INIT` on that port and by nothing else, and cleared by reset
and by nothing else. -/
def Obligations.ReadyOnlyByInit : Prop :=
  ∀ (s t : State) (p : Port), step s = .next t →
    (t.unit p).ready = (s.unit p).ready ∨
    ((t.unit p).ready = true ∧ s.nextTurn = .seq ∧ s.seq = .init5 p) ∨
    ((t.unit p).ready = false ∧ s.nextTurn = .reset)

/-- R29: who sets and who clears `DRE` and `RXC`, apart from reset. -/
def Obligations.FlagsChangeOnlyAsListed : Prop :=
  ∀ (s t : State) (p : Port), step s = .next t → s.nextTurn ≠ .reset →
    ((s.unit p).dre = false → (t.unit p).dre = true → s.nextTurn = .lineTx p) ∧
    ((s.unit p).dre = true → (t.unit p).dre = false → s.nextTurn = .seq ∧ s.seq = .txWrite p) ∧
    ((s.unit p).rxc = false → (t.unit p).rxc = true → s.nextTurn = .lineRx p) ∧
    ((s.unit p).rxc = true → (t.unit p).rxc = false → s.nextTurn = .seq ∧ s.seq = .rxRead p)

/-- R43: a step of one port's agent, or of the sequencer for that port, changes no state of the other port, except
that on a loopback line a departure appends to the other port's arrivals. -/
def Obligations.PortsDoNotInteract : Prop :=
  ∀ (s t : State) (p : Port), step s = .next t →
    (s.nextTurn = .host → t.unit p = s.unit p) ∧
    (s.nextTurn = .seq → p ≠ s.port → t.unit p = s.unit p) ∧
    (s.nextTurn = .lineRx p.other → t.unit p = s.unit p) ∧
    ((∃ c, s.nextTurn = .arrive p.other c) → t.unit p = s.unit p) ∧
    (s.nextTurn = .lineTx p.other → s.setup.wiring = .free → t.unit p = s.unit p) ∧
    (s.nextTurn = .lineTx p.other → ∃ cs, t.unit p = { s.unit p with lineIn := (s.unit p).lineIn ++ cs })

/-- R60, R120: a step answers the host exactly when it completes a command, exactly once, with a byte for `RECEIVE`
only; and no step but a reset ends a command otherwise. The record of responses is the model's, log 16. -/
def Obligations.OneResponsePerCommand : Prop :=
  ∀ s t : State, step s = .next t →
    (t.responses = s.responses ∧ (s.stage ≠ .idle → t.stage = .idle → s.nextTurn = .reset)) ∨
    (s.nextTurn = .seq ∧ t.stage = .idle ∧
      ((∃ p c, s.running = some (.init p c) ∧ t.responses = s.responses ++ [.done]) ∨
       (∃ p b, s.running = some (.transmit p b) ∧ t.responses = s.responses ++ [.done]) ∨
       (∃ p, s.running = some (.receive p) ∧ t.responses = s.responses ++ [.byte t.rsp])))

/-- The parameters never change, and the host's commands are used up one at a time, in order (R37, R8). Where the
parameters and the commands stand is the model's choice, logs 6 and 8. -/
def Obligations.ParametersFixedCommandsInOrder : Prop :=
  ∀ s t : State, step s = .next t →
    t.setup = s.setup ∧
    (t.cmds = s.cmds ∨ (s.nextTurn = .host ∧ s.stage = .idle ∧ t.stage ≠ .idle ∧ ∃ w, s.cmds = w :: t.cmds))

/-- R8: once the run is over, the host, the sequencer and both transmitters have no move. `LineRx` may still take a
character from the line, an arrival may still append one and a reset may still be asserted; each of them leaves the run
over, and none answers the host. `LineRx` and an arrival change nothing but the receive side of their port. That a turn
without a step changes nothing is the model's choice, logs 8 and 20; the arrival as a turn is log 17; that a reset leaves
the host's commands and the record of responses is log 4. -/
def Obligations.RunOverIsQuiet : Prop :=
  ∀ s : State, runOver s = true →
    takeTurn .host s = .next s ∧ takeTurn .seq s = .next s ∧ (∀ p, takeTurn (.lineTx p) s = .next s) ∧
    (∀ m, ∃ t, takeTurn m s = .next t ∧ runOver t = true ∧ t.responses = s.responses) ∧
    (∀ p, ∃ l v r k, takeTurn (.lineRx p) s = .next { s with
      ports := s.ports.set p { s.unit p with lineIn := l, rxh := v, rxc := r }, drawn := k }) ∧
    ∀ p c, ∃ l, takeTurn (.arrive p c) s = .next { s with ports := s.ports.set p { s.unit p with lineIn := l } }

/-- R19, R23, R46, R126, R141 at reset. -/
def Obligations.InvariantAtReset : Prop := Inv State.reset

/-- R19, R23, R46, R92, R93, R126: every step, of whichever agent, keeps the invariant of the block: the enables and
`READY` agree, the unnamed register bits stay 0, no byte is pending on an Uninitialized port, `DATA` is accessed only
when its flag allows, and an `INIT` in progress has written what its stage says. -/
def Obligations.StepKeepsInvariant : Prop := ∀ s t : State, Inv s → step s = .next t → Inv t

/-- R28, R141: what reset leaves, as far as the spec gives it. -/
def Obligations.ResetValues : Prop :=
  State.reset.seq = .idle ∧ State.reset.faulted = false ∧
  ∀ p, (State.reset.unit p).ready = false ∧ (State.reset.unit p).ctrlb = 0x00#8 ∧
    (State.reset.unit p).dre = true ∧ (State.reset.unit p).rxc = false ∧
    peek State.reset (addr State.reset.setup.regMap p .status) = some 0x20#8 ∧ (State.reset.unit p).lineOut = []

/-- R140, R28: the reset during a run, from any state, a hang and a `FAULTED` run among them: both ports at once, the
mark `FAULTED` clear, no response for the command it abandons, a loopback line emptied and a free line's arrivals left to
come. That the arrivals of a free line stay is deduced, log 4. -/
def Obligations.BlockResetFromAnyState : Prop :=
  (∀ s : State, ∃ t, takeTurn .reset s = .next t ∧ t.seq = .idle ∧ t.faulted = false ∧ t.responses = s.responses ∧
    ∀ p, (t.unit p).ready = false ∧ (t.unit p).ctrlb = 0x00#8 ∧ (t.unit p).dre = true ∧ (t.unit p).rxc = false ∧
      (t.unit p).lineOut = [] ∧ (s.setup.wiring = .loopback → (t.unit p).lineIn = []) ∧
      (s.setup.wiring = .free → (t.unit p).lineIn = (s.unit p).lineIn)) ∧
  ∀ s : State, s.nextTurn = .reset → step s = takeTurn .reset s.useTurn

/-! ### Blocking, fairness, round trip -/

/-- R112, R117, R122: a command whose flag never sets polls for ever: along any moves in which the port's line-side
agent takes no step (its turns may come, on a line with nothing to arrive among them) and the block is not reset, there
is no fault, no response, and no command of either port is accepted. That the host's turn and a turn without a step
change nothing, and the record of responses, are the model's choices, logs 8, 16 and 20. -/
def Obligations.UnreadyPortBlocksForever : Prop :=
  ∀ (ms : List Turn) (s : State), (∀ m ∈ ms, m ≠ .reset) →
    (s.stage = .txPoll → (s.unit s.port).dre = false →
      TakesNoStep (.lineTx s.port) (fun u => lineTxEnabled s.port u = true) ms s →
      ∃ t, runTurns ms s = .next t ∧ t.seq = s.seq ∧ t.responses = s.responses ∧ t.cmds = s.cmds) ∧
    (s.stage = .rxPoll → (s.unit s.port).rxc = false →
      TakesNoStep (.lineRx s.port) (fun u => (u.unit s.port).lineIn ≠ []) ms s →
      ∃ t, runTurns ms s = .next t ∧ t.seq = s.seq ∧ t.responses = s.responses ∧ t.cmds = s.cmds)

/-- R112: with a fair `LineTx[p]` and a running sequencer, an accepted `TRANSMIT` on a Ready port terminates, with its
byte in the holding register. -/
def Obligations.FairTransmitTerminates : Prop :=
  ∀ (s : State) (f : Nat → Turn), Inv s → s.stage = .txPoll → SequencerRuns f → FairLineTx f s s.port →
    ∃ n t, runTurns (moves f n) s = .next t ∧ t.stage = .idle ∧ t.responses = s.responses ++ [.done] ∧
      (t.unit s.port).txh = s.txb ∧ (t.unit s.port).dre = false

/-- R114, first half: on a loopback pair of Ready ports with equal 8-bit formats and nothing pending, in whatever
order the agents move and whatever else happens, if `TRANSMIT(p, b)` and then `RECEIVE` on the other port are
answered, the byte answered is `b`. -/
def Obligations.LoopbackRoundTrip : Prop :=
  ∀ (s t : State) (p : Port) (b v : Byte) (n : Nat), Inv s → s.stage = .idle → s.setup.wiring = .loopback →
    (s.unit p).ready = true → (s.unit p.other).ready = true →
    (s.unit p).effective.isSome = true → (s.unit p).effective = (s.unit p.other).effective →
    (s.unit p).dataBits = some 8 →
    (s.unit p).dre = true → (s.unit p.other).rxc = false → (s.unit p.other).lineIn = [] →
    s.cmds = [encode (.transmit p b), encode (.receive p.other)] →
    Host.Core.run core n s = .next t → t.responses = s.responses ++ [.done, .byte v] → v = b

/-- R114, second half: with every agent fair and no reset, both commands complete, and the byte answered is `b`. -/
def Obligations.FairLoopbackRoundTripCompletes : Prop :=
  ∀ (s : State) (p : Port) (b : Byte) (f : Nat → Turn), Inv s → s.stage = .idle → s.setup.wiring = .loopback →
    (s.unit p).ready = true → (s.unit p.other).ready = true →
    (s.unit p).effective.isSome = true → (s.unit p).effective = (s.unit p.other).effective →
    (s.unit p).dataBits = some 8 →
    (s.unit p).dre = true → (s.unit p.other).rxc = false → (s.unit p.other).lineIn = [] →
    s.cmds = [encode (.transmit p b), encode (.receive p.other)] →
    HostRuns f → SequencerRuns f → FairLineTx f s p → FairLineRx f s p.other →
    ∃ n t, runTurns (moves f n) s = .next t ∧ t.responses = s.responses ++ [.done, .byte b]
end

