-- ==== Sys2Proof/Laws/State.lean ====
section
/-! SUPPORT. The small lemmas of State: the two port units read back what was set, and each named update of State
leaves every field it does not name as it was. -/

namespace Sys2Proof

@[simp] theorem Port.other_ne (p : Port) : p.other ≠ p := by cases p <;> decide
@[simp] theorem Port.ne_other (p : Port) : p ≠ p.other := by cases p <;> decide
@[simp] theorem Port.other_other (p : Port) : p.other.other = p := by cases p <;> rfl
theorem Port.eq_other_of_ne {p q : Port} (h : q ≠ p) : q = p.other := by cases p <;> cases q <;> simp_all [Port.other]

end Sys2Proof

namespace Sys2Proof.Machine

/-! ### The two units -/

@[simp] theorem Ports.get_set_same (u : Ports) (p : Port) (x : PortState) : (u.set p x).get p = x := by
  cases p <;> rfl
theorem Ports.get_set_ne (u : Ports) {p q : Port} (x : PortState) (h : q ≠ p) : (u.set p x).get q = u.get q := by
  cases p <;> cases q <;> simp_all [Ports.get, Ports.set]
@[simp] theorem Ports.get_set_other (u : Ports) (p : Port) (x : PortState) :
    (u.set p x).get p.other = u.get p.other := Ports.get_set_ne u x (Port.other_ne p)
@[simp] theorem Ports.get_other_set (u : Ports) (p : Port) (x : PortState) :
    (u.set p.other x).get p = u.get p := Ports.get_set_ne u x (Port.ne_other p)
@[simp] theorem Ports.set_set (u : Ports) (p : Port) (x y : PortState) : (u.set p x).set p y = u.set p y := by
  cases p <;> rfl
@[simp] theorem Ports.set_get (u : Ports) (p : Port) : u.set p (u.get p) = u := by cases p <;> rfl

theorem State.unit_def (s : State) (p : Port) : s.unit p = s.ports.get p := rfl

@[simp] theorem State.unit_updUnit_same (s : State) (p : Port) (f : PortState → PortState) :
    (s.updUnit p f).unit p = f (s.unit p) := Ports.get_set_same _ _ _
theorem State.unit_updUnit_ne (s : State) {p q : Port} (f : PortState → PortState) (h : q ≠ p) :
    (s.updUnit p f).unit q = s.unit q := Ports.get_set_ne _ _ h
@[simp] theorem State.unit_updUnit_other (s : State) (p : Port) (f : PortState → PortState) :
    (s.updUnit p f).unit p.other = s.unit p.other := Ports.get_set_other _ _ _
@[simp] theorem State.unit_other_updUnit (s : State) (p : Port) (f : PortState → PortState) :
    (s.updUnit p.other f).unit p = s.unit p := Ports.get_other_set _ _ _

@[simp] theorem State.unit_setReady_same (s : State) (p : Port) :
    (s.setReady p).unit p = { s.unit p with ready := true } := Ports.get_set_same _ _ _
theorem State.unit_setReady_ne (s : State) {p q : Port} (h : q ≠ p) : (s.setReady p).unit q = s.unit q :=
  Ports.get_set_ne _ _ h
@[simp] theorem State.unit_appendIn_same (s : State) (p : Port) (cs : List Byte) :
    (s.appendIn p cs).unit p = { s.unit p with lineIn := (s.unit p).lineIn ++ cs } := Ports.get_set_same _ _ _
theorem State.unit_appendIn_ne (s : State) {p q : Port} (cs : List Byte) (h : q ≠ p) :
    (s.appendIn p cs).unit q = s.unit q := Ports.get_set_ne _ _ h

/-! ### One lemma a field for each named update -/

@[simp] theorem State.updUnit_stage (s : State) (p : Port) (f : PortState → PortState) : (s.updUnit p f).stage = s.stage := rfl
@[simp] theorem State.updUnit_port (s : State) (p : Port) (f : PortState → PortState) : (s.updUnit p f).port = s.port := rfl
@[simp] theorem State.updUnit_cfg (s : State) (p : Port) (f : PortState → PortState) : (s.updUnit p f).cfg = s.cfg := rfl
@[simp] theorem State.updUnit_txb (s : State) (p : Port) (f : PortState → PortState) : (s.updUnit p f).txb = s.txb := rfl
@[simp] theorem State.updUnit_rsp (s : State) (p : Port) (f : PortState → PortState) : (s.updUnit p f).rsp = s.rsp := rfl
@[simp] theorem State.updUnit_faulted (s : State) (p : Port) (f : PortState → PortState) : (s.updUnit p f).faulted = s.faulted := rfl
@[simp] theorem State.updUnit_responses (s : State) (p : Port) (f : PortState → PortState) : (s.updUnit p f).responses = s.responses := rfl
@[simp] theorem State.updUnit_cmds (s : State) (p : Port) (f : PortState → PortState) : (s.updUnit p f).cmds = s.cmds := rfl
@[simp] theorem State.updUnit_turns (s : State) (p : Port) (f : PortState → PortState) : (s.updUnit p f).turns = s.turns := rfl
@[simp] theorem State.updUnit_setup (s : State) (p : Port) (f : PortState → PortState) : (s.updUnit p f).setup = s.setup := rfl
@[simp] theorem State.updUnit_drawn (s : State) (p : Port) (f : PortState → PortState) : (s.updUnit p f).drawn = s.drawn := rfl

@[simp] theorem State.goto_stage (s : State) (x : Stage) : (s.goto x).stage = x := rfl
@[simp] theorem State.goto_port (s : State) (x : Stage) : (s.goto x).port = s.port := rfl
@[simp] theorem State.goto_cfg (s : State) (x : Stage) : (s.goto x).cfg = s.cfg := rfl
@[simp] theorem State.goto_txb (s : State) (x : Stage) : (s.goto x).txb = s.txb := rfl
@[simp] theorem State.goto_rsp (s : State) (x : Stage) : (s.goto x).rsp = s.rsp := rfl
@[simp] theorem State.goto_faulted (s : State) (x : Stage) : (s.goto x).faulted = s.faulted := rfl
@[simp] theorem State.goto_responses (s : State) (x : Stage) : (s.goto x).responses = s.responses := rfl
@[simp] theorem State.goto_cmds (s : State) (x : Stage) : (s.goto x).cmds = s.cmds := rfl
@[simp] theorem State.goto_turns (s : State) (x : Stage) : (s.goto x).turns = s.turns := rfl
@[simp] theorem State.goto_setup (s : State) (x : Stage) : (s.goto x).setup = s.setup := rfl
@[simp] theorem State.goto_drawn (s : State) (x : Stage) : (s.goto x).drawn = s.drawn := rfl
@[simp] theorem State.goto_unit (s : State) (x : Stage) (p : Port) : (s.goto x).unit p = s.unit p := rfl

@[simp] theorem State.respond_stage (s : State) (r : Response) : (s.respond r).stage = .idle := rfl
@[simp] theorem State.respond_port (s : State) (r : Response) : (s.respond r).port = s.port := rfl
@[simp] theorem State.respond_cfg (s : State) (r : Response) : (s.respond r).cfg = s.cfg := rfl
@[simp] theorem State.respond_txb (s : State) (r : Response) : (s.respond r).txb = s.txb := rfl
@[simp] theorem State.respond_rsp (s : State) (r : Response) : (s.respond r).rsp = s.rsp := rfl
@[simp] theorem State.respond_faulted (s : State) (r : Response) : (s.respond r).faulted = s.faulted := rfl
@[simp] theorem State.respond_responses (s : State) (r : Response) : (s.respond r).responses = s.responses ++ [r] := rfl
@[simp] theorem State.respond_cmds (s : State) (r : Response) : (s.respond r).cmds = s.cmds := rfl
@[simp] theorem State.respond_turns (s : State) (r : Response) : (s.respond r).turns = s.turns := rfl
@[simp] theorem State.respond_setup (s : State) (r : Response) : (s.respond r).setup = s.setup := rfl
@[simp] theorem State.respond_drawn (s : State) (r : Response) : (s.respond r).drawn = s.drawn := rfl
@[simp] theorem State.respond_unit (s : State) (r : Response) (p : Port) : (s.respond r).unit p = s.unit p := rfl

@[simp] theorem State.setRsp_stage (s : State) (v : Byte) : (s.setRsp v).stage = s.stage := rfl
@[simp] theorem State.setRsp_port (s : State) (v : Byte) : (s.setRsp v).port = s.port := rfl
@[simp] theorem State.setRsp_cfg (s : State) (v : Byte) : (s.setRsp v).cfg = s.cfg := rfl
@[simp] theorem State.setRsp_txb (s : State) (v : Byte) : (s.setRsp v).txb = s.txb := rfl
@[simp] theorem State.setRsp_rsp (s : State) (v : Byte) : (s.setRsp v).rsp = v := rfl
@[simp] theorem State.setRsp_faulted (s : State) (v : Byte) : (s.setRsp v).faulted = s.faulted := rfl
@[simp] theorem State.setRsp_responses (s : State) (v : Byte) : (s.setRsp v).responses = s.responses := rfl
@[simp] theorem State.setRsp_cmds (s : State) (v : Byte) : (s.setRsp v).cmds = s.cmds := rfl
@[simp] theorem State.setRsp_turns (s : State) (v : Byte) : (s.setRsp v).turns = s.turns := rfl
@[simp] theorem State.setRsp_setup (s : State) (v : Byte) : (s.setRsp v).setup = s.setup := rfl
@[simp] theorem State.setRsp_drawn (s : State) (v : Byte) : (s.setRsp v).drawn = s.drawn := rfl
@[simp] theorem State.setRsp_unit (s : State) (v : Byte) (p : Port) : (s.setRsp v).unit p = s.unit p := rfl

@[simp] theorem State.setCmds_stage (s : State) (l : List CmdWord) : (s.setCmds l).stage = s.stage := rfl
@[simp] theorem State.setCmds_port (s : State) (l : List CmdWord) : (s.setCmds l).port = s.port := rfl
@[simp] theorem State.setCmds_cfg (s : State) (l : List CmdWord) : (s.setCmds l).cfg = s.cfg := rfl
@[simp] theorem State.setCmds_txb (s : State) (l : List CmdWord) : (s.setCmds l).txb = s.txb := rfl
@[simp] theorem State.setCmds_rsp (s : State) (l : List CmdWord) : (s.setCmds l).rsp = s.rsp := rfl
@[simp] theorem State.setCmds_faulted (s : State) (l : List CmdWord) : (s.setCmds l).faulted = s.faulted := rfl
@[simp] theorem State.setCmds_responses (s : State) (l : List CmdWord) : (s.setCmds l).responses = s.responses := rfl
@[simp] theorem State.setCmds_cmds (s : State) (l : List CmdWord) : (s.setCmds l).cmds = l := rfl
@[simp] theorem State.setCmds_turns (s : State) (l : List CmdWord) : (s.setCmds l).turns = s.turns := rfl
@[simp] theorem State.setCmds_setup (s : State) (l : List CmdWord) : (s.setCmds l).setup = s.setup := rfl
@[simp] theorem State.setCmds_drawn (s : State) (l : List CmdWord) : (s.setCmds l).drawn = s.drawn := rfl
@[simp] theorem State.setCmds_unit (s : State) (l : List CmdWord) (p : Port) : (s.setCmds l).unit p = s.unit p := rfl

@[simp] theorem State.setTurns_stage (s : State) (l : List Turn) : (s.setTurns l).stage = s.stage := rfl
@[simp] theorem State.setTurns_port (s : State) (l : List Turn) : (s.setTurns l).port = s.port := rfl
@[simp] theorem State.setTurns_cfg (s : State) (l : List Turn) : (s.setTurns l).cfg = s.cfg := rfl
@[simp] theorem State.setTurns_txb (s : State) (l : List Turn) : (s.setTurns l).txb = s.txb := rfl
@[simp] theorem State.setTurns_rsp (s : State) (l : List Turn) : (s.setTurns l).rsp = s.rsp := rfl
@[simp] theorem State.setTurns_faulted (s : State) (l : List Turn) : (s.setTurns l).faulted = s.faulted := rfl
@[simp] theorem State.setTurns_responses (s : State) (l : List Turn) : (s.setTurns l).responses = s.responses := rfl
@[simp] theorem State.setTurns_cmds (s : State) (l : List Turn) : (s.setTurns l).cmds = s.cmds := rfl
@[simp] theorem State.setTurns_turns (s : State) (l : List Turn) : (s.setTurns l).turns = l := rfl
@[simp] theorem State.setTurns_setup (s : State) (l : List Turn) : (s.setTurns l).setup = s.setup := rfl
@[simp] theorem State.setTurns_drawn (s : State) (l : List Turn) : (s.setTurns l).drawn = s.drawn := rfl
@[simp] theorem State.setTurns_unit (s : State) (l : List Turn) (p : Port) : (s.setTurns l).unit p = s.unit p := rfl

@[simp] theorem State.setDrawn_stage (s : State) (n : Nat) : (s.setDrawn n).stage = s.stage := rfl
@[simp] theorem State.setDrawn_port (s : State) (n : Nat) : (s.setDrawn n).port = s.port := rfl
@[simp] theorem State.setDrawn_cfg (s : State) (n : Nat) : (s.setDrawn n).cfg = s.cfg := rfl
@[simp] theorem State.setDrawn_txb (s : State) (n : Nat) : (s.setDrawn n).txb = s.txb := rfl
@[simp] theorem State.setDrawn_rsp (s : State) (n : Nat) : (s.setDrawn n).rsp = s.rsp := rfl
@[simp] theorem State.setDrawn_faulted (s : State) (n : Nat) : (s.setDrawn n).faulted = s.faulted := rfl
@[simp] theorem State.setDrawn_responses (s : State) (n : Nat) : (s.setDrawn n).responses = s.responses := rfl
@[simp] theorem State.setDrawn_cmds (s : State) (n : Nat) : (s.setDrawn n).cmds = s.cmds := rfl
@[simp] theorem State.setDrawn_turns (s : State) (n : Nat) : (s.setDrawn n).turns = s.turns := rfl
@[simp] theorem State.setDrawn_setup (s : State) (n : Nat) : (s.setDrawn n).setup = s.setup := rfl
@[simp] theorem State.setDrawn_drawn (s : State) (n : Nat) : (s.setDrawn n).drawn = n := rfl
@[simp] theorem State.setDrawn_unit (s : State) (n : Nat) (p : Port) : (s.setDrawn n).unit p = s.unit p := rfl

@[simp] theorem State.markFaulted_stage (s : State) : (s.markFaulted).stage = s.stage := rfl
@[simp] theorem State.markFaulted_port (s : State) : (s.markFaulted).port = s.port := rfl
@[simp] theorem State.markFaulted_cfg (s : State) : (s.markFaulted).cfg = s.cfg := rfl
@[simp] theorem State.markFaulted_txb (s : State) : (s.markFaulted).txb = s.txb := rfl
@[simp] theorem State.markFaulted_rsp (s : State) : (s.markFaulted).rsp = s.rsp := rfl
@[simp] theorem State.markFaulted_faulted (s : State) : (s.markFaulted).faulted = true := rfl
@[simp] theorem State.markFaulted_responses (s : State) : (s.markFaulted).responses = s.responses := rfl
@[simp] theorem State.markFaulted_cmds (s : State) : (s.markFaulted).cmds = s.cmds := rfl
@[simp] theorem State.markFaulted_turns (s : State) : (s.markFaulted).turns = s.turns := rfl
@[simp] theorem State.markFaulted_setup (s : State) : (s.markFaulted).setup = s.setup := rfl
@[simp] theorem State.markFaulted_drawn (s : State) : (s.markFaulted).drawn = s.drawn := rfl
@[simp] theorem State.markFaulted_unit (s : State) (p : Port) : (s.markFaulted).unit p = s.unit p := rfl

@[simp] theorem State.setReady_stage (s : State) (p : Port) : (s.setReady p).stage = s.stage := rfl
@[simp] theorem State.setReady_port (s : State) (p : Port) : (s.setReady p).port = s.port := rfl
@[simp] theorem State.setReady_cfg (s : State) (p : Port) : (s.setReady p).cfg = s.cfg := rfl
@[simp] theorem State.setReady_txb (s : State) (p : Port) : (s.setReady p).txb = s.txb := rfl
@[simp] theorem State.setReady_rsp (s : State) (p : Port) : (s.setReady p).rsp = s.rsp := rfl
@[simp] theorem State.setReady_faulted (s : State) (p : Port) : (s.setReady p).faulted = s.faulted := rfl
@[simp] theorem State.setReady_responses (s : State) (p : Port) : (s.setReady p).responses = s.responses := rfl
@[simp] theorem State.setReady_cmds (s : State) (p : Port) : (s.setReady p).cmds = s.cmds := rfl
@[simp] theorem State.setReady_turns (s : State) (p : Port) : (s.setReady p).turns = s.turns := rfl
@[simp] theorem State.setReady_setup (s : State) (p : Port) : (s.setReady p).setup = s.setup := rfl
@[simp] theorem State.setReady_drawn (s : State) (p : Port) : (s.setReady p).drawn = s.drawn := rfl

@[simp] theorem State.appendIn_stage (s : State) (p : Port) (cs : List Byte) : (s.appendIn p cs).stage = s.stage := rfl
@[simp] theorem State.appendIn_port (s : State) (p : Port) (cs : List Byte) : (s.appendIn p cs).port = s.port := rfl
@[simp] theorem State.appendIn_cfg (s : State) (p : Port) (cs : List Byte) : (s.appendIn p cs).cfg = s.cfg := rfl
@[simp] theorem State.appendIn_txb (s : State) (p : Port) (cs : List Byte) : (s.appendIn p cs).txb = s.txb := rfl
@[simp] theorem State.appendIn_rsp (s : State) (p : Port) (cs : List Byte) : (s.appendIn p cs).rsp = s.rsp := rfl
@[simp] theorem State.appendIn_faulted (s : State) (p : Port) (cs : List Byte) : (s.appendIn p cs).faulted = s.faulted := rfl
@[simp] theorem State.appendIn_responses (s : State) (p : Port) (cs : List Byte) : (s.appendIn p cs).responses = s.responses := rfl
@[simp] theorem State.appendIn_cmds (s : State) (p : Port) (cs : List Byte) : (s.appendIn p cs).cmds = s.cmds := rfl
@[simp] theorem State.appendIn_turns (s : State) (p : Port) (cs : List Byte) : (s.appendIn p cs).turns = s.turns := rfl
@[simp] theorem State.appendIn_setup (s : State) (p : Port) (cs : List Byte) : (s.appendIn p cs).setup = s.setup := rfl
@[simp] theorem State.appendIn_drawn (s : State) (p : Port) (cs : List Byte) : (s.appendIn p cs).drawn = s.drawn := rfl

@[simp] theorem State.latchInit_stage (s : State) (p : Port) (c : PortConfig) : (s.latchInit p c).stage = .init1 := rfl
@[simp] theorem State.latchInit_port (s : State) (p : Port) (c : PortConfig) : (s.latchInit p c).port = p := rfl
@[simp] theorem State.latchInit_cfg (s : State) (p : Port) (c : PortConfig) : (s.latchInit p c).cfg = c := rfl
@[simp] theorem State.latchInit_txb (s : State) (p : Port) (c : PortConfig) : (s.latchInit p c).txb = s.txb := rfl
@[simp] theorem State.latchInit_rsp (s : State) (p : Port) (c : PortConfig) : (s.latchInit p c).rsp = s.rsp := rfl
@[simp] theorem State.latchInit_faulted (s : State) (p : Port) (c : PortConfig) : (s.latchInit p c).faulted = s.faulted := rfl
@[simp] theorem State.latchInit_responses (s : State) (p : Port) (c : PortConfig) : (s.latchInit p c).responses = s.responses := rfl
@[simp] theorem State.latchInit_cmds (s : State) (p : Port) (c : PortConfig) : (s.latchInit p c).cmds = s.cmds := rfl
@[simp] theorem State.latchInit_turns (s : State) (p : Port) (c : PortConfig) : (s.latchInit p c).turns = s.turns := rfl
@[simp] theorem State.latchInit_setup (s : State) (p : Port) (c : PortConfig) : (s.latchInit p c).setup = s.setup := rfl
@[simp] theorem State.latchInit_drawn (s : State) (p : Port) (c : PortConfig) : (s.latchInit p c).drawn = s.drawn := rfl
@[simp] theorem State.latchInit_unit (s : State) (q : Port) (c : PortConfig) (p : Port) : (s.latchInit q c).unit p = s.unit p := rfl

@[simp] theorem State.latchTransmit_stage (s : State) (p : Port) (b : Byte) : (s.latchTransmit p b).stage = .txPoll := rfl
@[simp] theorem State.latchTransmit_port (s : State) (p : Port) (b : Byte) : (s.latchTransmit p b).port = p := rfl
@[simp] theorem State.latchTransmit_cfg (s : State) (p : Port) (b : Byte) : (s.latchTransmit p b).cfg = s.cfg := rfl
@[simp] theorem State.latchTransmit_txb (s : State) (p : Port) (b : Byte) : (s.latchTransmit p b).txb = b := rfl
@[simp] theorem State.latchTransmit_rsp (s : State) (p : Port) (b : Byte) : (s.latchTransmit p b).rsp = s.rsp := rfl
@[simp] theorem State.latchTransmit_faulted (s : State) (p : Port) (b : Byte) : (s.latchTransmit p b).faulted = s.faulted := rfl
@[simp] theorem State.latchTransmit_responses (s : State) (p : Port) (b : Byte) : (s.latchTransmit p b).responses = s.responses := rfl
@[simp] theorem State.latchTransmit_cmds (s : State) (p : Port) (b : Byte) : (s.latchTransmit p b).cmds = s.cmds := rfl
@[simp] theorem State.latchTransmit_turns (s : State) (p : Port) (b : Byte) : (s.latchTransmit p b).turns = s.turns := rfl
@[simp] theorem State.latchTransmit_setup (s : State) (p : Port) (b : Byte) : (s.latchTransmit p b).setup = s.setup := rfl
@[simp] theorem State.latchTransmit_drawn (s : State) (p : Port) (b : Byte) : (s.latchTransmit p b).drawn = s.drawn := rfl
@[simp] theorem State.latchTransmit_unit (s : State) (q : Port) (b : Byte) (p : Port) : (s.latchTransmit q b).unit p = s.unit p := rfl

@[simp] theorem State.latchReceive_stage (s : State) (p : Port) : (s.latchReceive p).stage = .rxPoll := rfl
@[simp] theorem State.latchReceive_port (s : State) (p : Port) : (s.latchReceive p).port = p := rfl
@[simp] theorem State.latchReceive_cfg (s : State) (p : Port) : (s.latchReceive p).cfg = s.cfg := rfl
@[simp] theorem State.latchReceive_txb (s : State) (p : Port) : (s.latchReceive p).txb = s.txb := rfl
@[simp] theorem State.latchReceive_rsp (s : State) (p : Port) : (s.latchReceive p).rsp = s.rsp := rfl
@[simp] theorem State.latchReceive_faulted (s : State) (p : Port) : (s.latchReceive p).faulted = s.faulted := rfl
@[simp] theorem State.latchReceive_responses (s : State) (p : Port) : (s.latchReceive p).responses = s.responses := rfl
@[simp] theorem State.latchReceive_cmds (s : State) (p : Port) : (s.latchReceive p).cmds = s.cmds := rfl
@[simp] theorem State.latchReceive_turns (s : State) (p : Port) : (s.latchReceive p).turns = s.turns := rfl
@[simp] theorem State.latchReceive_setup (s : State) (p : Port) : (s.latchReceive p).setup = s.setup := rfl
@[simp] theorem State.latchReceive_drawn (s : State) (p : Port) : (s.latchReceive p).drawn = s.drawn := rfl
@[simp] theorem State.latchReceive_unit (s : State) (q : Port) (p : Port) : (s.latchReceive q).unit p = s.unit p := rfl

/-! ### The block reset, field by field (70_reset_and_hazards.md R140) -/

@[simp] theorem State.blockReset_stage (s : State) : s.blockReset.stage = .idle := rfl
@[simp] theorem State.blockReset_seq (s : State) : s.blockReset.seq = .idle := rfl
@[simp] theorem State.blockReset_faulted (s : State) : s.blockReset.faulted = false := rfl
@[simp] theorem State.blockReset_responses (s : State) : s.blockReset.responses = s.responses := rfl
@[simp] theorem State.blockReset_cmds (s : State) : s.blockReset.cmds = s.cmds := rfl
@[simp] theorem State.blockReset_turns (s : State) : s.blockReset.turns = s.turns := rfl
@[simp] theorem State.blockReset_setup (s : State) : s.blockReset.setup = s.setup := rfl
@[simp] theorem State.blockReset_drawn (s : State) : s.blockReset.drawn = s.drawn + 1 := rfl

/-- All that is free in a port after a reset is what R28 calls unspecified. -/
theorem State.blockReset_unit (s : State) (p : Port) :
    ∃ x, s.blockReset.unit p = (s.unit p).afterReset s.setup.wiring x := by cases p <;> exact ⟨_, rfl⟩

@[simp] theorem State.blockReset_ready (s : State) (p : Port) : (s.blockReset.unit p).ready = false := by cases p <;> rfl
@[simp] theorem State.blockReset_ctrlb (s : State) (p : Port) : (s.blockReset.unit p).ctrlb = 0 := by cases p <;> rfl
@[simp] theorem State.blockReset_dre (s : State) (p : Port) : (s.blockReset.unit p).dre = true := by cases p <;> rfl
@[simp] theorem State.blockReset_rxc (s : State) (p : Port) : (s.blockReset.unit p).rxc = false := by cases p <;> rfl
@[simp] theorem State.blockReset_lineOut (s : State) (p : Port) : (s.blockReset.unit p).lineOut = [] := by
  cases p <;> rfl
theorem State.blockReset_lineIn_free {s : State} (h : s.setup.wiring = .free) (p : Port) :
    (s.blockReset.unit p).lineIn = (s.unit p).lineIn := by
  obtain ⟨x, hx⟩ := s.blockReset_unit p
  simp [hx, PortState.afterReset, h]
theorem State.blockReset_lineIn_loopback {s : State} (h : s.setup.wiring = .loopback) (p : Port) :
    (s.blockReset.unit p).lineIn = [] := by
  obtain ⟨x, hx⟩ := s.blockReset_unit p
  simp [hx, PortState.afterReset, h]

end Sys2Proof.Machine
end

