-- ==== Sys2Proof/Laws/Operands.lean ====
section
/-! SUPPORT. The fields of the bytes `INIT` writes, read back (41_line_format.md R80 to R87), and the character mask
(43_transmit_receive.md R110). -/

namespace Sys2Proof.Machine

/-- The data-bits code as a number, for every operand (R80). -/
theorem encDb_toNat (n : Byte) :
    (encDb n).toNat = if n = 5#8 then 0 else if n = 6#8 then 1 else if n = 7#8 then 2 else 3 := by
  unfold encDb
  split
  · rfl
  · split
    · rfl
    · split <;> rfl

/-- The bits of a byte assembled from the three codes at their positions (R84). -/
theorem formatBits (x : BitVec 2) (y : BitVec 1) (z : BitVec 2) (v : Byte)
    (h : v = (x.setWidth 8 <<< pmLoBit) ||| (y.setWidth 8 <<< sbsBit) ||| (z.setWidth 8 <<< chsz0Bit)) :
    v.getLsbD pmHiBit = x.getLsbD 1 ∧ v.getLsbD pmLoBit = x.getLsbD 0 ∧ v.getLsbD sbsBit = y.getLsbD 0 ∧
      2 * (v.getLsbD chsz1Bit).toNat + (v.getLsbD chsz0Bit).toNat = z.toNat ∧ v &&& 0xC1#8 = 0#8 := by
  subst h
  revert x y z
  decide

/-- The format field of a port whose `CTRLC` is `FMT(c)`: the character-size code (R84). -/
theorem chsz_of_fmt {u : PortState} {c : PortConfig} (h : u.ctrlc = fmt c) : u.chsz = (encDb c.dataBits).toNat :=
  (formatBits _ _ _ u.ctrlc h).2.2.2.1

/-- The format field of a port whose `CTRLC` is `FMT(c)`: the parity-mode bits (R84). -/
theorem pm_of_fmt {u : PortState} {c : PortConfig} (h : u.ctrlc = fmt c) :
    u.pm = ((encPar c.parity).getLsbD 1, (encPar c.parity).getLsbD 0) := by
  have hb := formatBits _ _ _ u.ctrlc h
  simp only [PortState.pm, hb.1, hb.2.1]

/-- The format field of a port whose `CTRLC` is `FMT(c)`: the stop-bit select (R84). -/
theorem sbs_of_fmt {u : PortState} {c : PortConfig} (h : u.ctrlc = fmt c) :
    u.sbs = (encSb c.stopBits).getLsbD 0 := (formatBits _ _ _ u.ctrlc h).2.2.1

/-- `FMT(c)` is a byte of the kind the invariant names: no unnamed bit, and not the parity code (0,1). -/
theorem formatByte_fmt (c : PortConfig) : Safety.formatByte (fmt c) = true := by
  have hb := formatBits _ _ _ (fmt c) rfl
  have hp : ∀ y : Byte, ((encPar y).getLsbD 0 && !(encPar y).getLsbD 1) = false := by
    intro y
    unfold encPar
    split
    · rfl
    · split <;> rfl
  simp only [Safety.formatByte, hb.1, hb.2.1, hb.2.2.2.2, hp]
  rfl

theorem enb_eq : enb = 0x18#8 := by decide

theorem chsz_le (u : PortState) : u.chsz ≤ 3 := by
  unfold PortState.chsz
  cases u.ctrlc.getLsbD chsz1Bit <;> cases u.ctrlc.getLsbD chsz0Bit <;> decide

theorem dataBits_le {u : PortState} {n : Nat} (h : u.dataBits = some n) : n ≤ 8 := by
  unfold PortState.dataBits at h
  split at h
  · cases h
  · cases h
    have := chsz_le u
    omega

/-- Masking a character to `n` bits keeps its value modulo `2^n` (R110). -/
theorem and_charMask {n : Nat} (hn : n ≤ 8) (c : Byte) : c &&& charMask n = BitVec.ofNat 8 (c.toNat % 2 ^ n) := by
  have hlt : 2 ^ n - 1 < 2 ^ 8 := by
    have := Nat.pow_le_pow_right (n := 2) (by omega) hn
    have := Nat.two_pow_pos n
    omega
  apply BitVec.eq_of_toNat_eq
  rw [BitVec.toNat_and, charMask, BitVec.toNat_ofNat, BitVec.toNat_ofNat, Nat.mod_eq_of_lt hlt,
    Nat.and_two_pow_sub_one_eq_mod]
  refine (Nat.mod_eq_of_lt (Nat.lt_of_le_of_lt (Nat.mod_le _ _) c.isLt)).symm

end Sys2Proof.Machine
end

