-- ==== Sys2Proof/Laws/Ops.lean ====
section
/-! SUPPORT. What each shared operation does, said once: addresses, the register bus, the divisor byte, the frame of a
command, and the advance functions of the three commands, stage by stage. -/

namespace Sys2Proof.Machine

/-! ### Addresses (20_memory.md R31) -/

theorem regAt_offset (r : Reg) : regAt (offset r) = some r := by cases r <;> rfl

theorem offset_of_regAt {n : Nat} {r : Reg} (h : regAt n = some r) : n = offset r := by
  unfold regAt at h
  split at h <;> simp_all [offset] <;> subst_vars <;> rfl

theorem offset_lt (r : Reg) : offset r < 6 := by cases r <;> decide

theorem base_apart (m : RegMap) : base m .A + 6 ≤ base m .B ∨ base m .B + 6 ≤ base m .A := by
  cases h : m.bFirst <;> simp only [base, h] <;> simp

theorem locateIn_own (m : RegMap) (p : Port) (r : Reg) : locateIn m p (addr m p r) = some (p, r) := by
  simp [locateIn, addr, regAt_offset]

/-- Everything a hit of `locateIn` says: the address is that register's. -/
theorem locateIn_some {m : RegMap} {p : Port} {a : Nat} {x : Port × Reg} (h : locateIn m p a = some x) :
    x.1 = p ∧ a = addr m p x.2 := by
  unfold locateIn at h
  split at h
  · rename_i hle
    obtain ⟨r, hr, rfl⟩ := Option.map_eq_some_iff.mp h
    have := offset_of_regAt hr
    exact ⟨rfl, by simp only [addr]; omega⟩
  · cases h

/-- The address of a register reaches that register. -/
@[simp] theorem locate_addr (m : RegMap) (p : Port) (r : Reg) : locate m (addr m p r) = some (p, r) := by
  unfold locate
  cases p with
  | A => rw [locateIn_own]
  | B =>
    have hA : locateIn m .A (addr m .B r) = none := by
      cases h : locateIn m .A (addr m .B r) with
      | none => rfl
      | some x =>
        have h1 := (locateIn_some h).2
        have h2 := base_apart m
        have h3 := offset_lt r
        have h4 := offset_lt x.2
        simp only [addr] at h1
        omega
    rw [hA, locateIn_own]

/-- An address that reaches a register is that register's address. -/
theorem locate_some {m : RegMap} {a : Nat} {p : Port} {r : Reg} (h : locate m a = some (p, r)) :
    a = addr m p r := by
  unfold locate at h
  split at h
  · rename_i x hx
    obtain ⟨h1, h2⟩ := locateIn_some hx
    cases h
    simp_all
  · obtain ⟨h1, h2⟩ := locateIn_some h
    simp_all

/-! ### The register bus (20_memory.md R42) -/

@[simp] theorem peek_addr (s : State) (p : Port) (r : Reg) :
    peek s (addr s.setup.regMap p r) = some (regValue p r s) := by simp [peek]

theorem memRead_addr (s : State) (p : Port) (r : Reg) :
    memRead (addr s.setup.regMap p r) s = some (regValue p r s, regReadEffect p r s) := by simp [memRead]

theorem memWrite_addr (s : State) (p : Port) (r : Reg) (v : Byte) :
    memWrite (addr s.setup.regMap p r) v s = some (regWrite p r v s) := by simp [memWrite]

/-- A bus read of the sequencer always reaches its register. -/
@[simp] theorem busRead_eq (p : Port) (r : Reg) (s : State) (k : Byte → State → Result) :
    busRead p r s k = k (regValue p r s) (regReadEffect p r s) := by simp [busRead, memRead_addr]

/-- A bus write of the sequencer always reaches its register. -/
@[simp] theorem busWrite_eq (p : Port) (r : Reg) (v : Byte) (s : State) (k : State → Result) :
    busWrite p r v s k = k (regWrite p r v s) := by simp [busWrite, memWrite_addr]

@[simp] theorem statusDre_statusByte (x y : Bool) : statusDre (statusByte x y) = y := by
  cases x <;> cases y <;> decide

@[simp] theorem statusRxc_statusByte (x y : Bool) : statusRxc (statusByte x y) = x := by
  cases x <;> cases y <;> decide

/-! ### The divisor byte (40_divisor.md R73, R74) -/

theorem divisorByte_of_some {s : State} {d : DivWord} (h : divisorFor s.setup.oorPolicy s.cfg.baud = some d)
    (half : DivWord → Byte) : divisorByte half s = (half d, s) := by simp [divisorByte, h]

theorem divisorByte_of_none {s : State} (h : divisorFor s.setup.oorPolicy s.cfg.baud = none)
    (half : DivWord → Byte) : divisorByte half s = (Config.freeByte s.drawn, s.setDrawn (s.drawn + 1)) := by
  simp [divisorByte, h, State.drawByte]

/-- All the state a divisor byte can touch is the counter of free values. -/
theorem divisorByte_state (half : DivWord → Byte) (s : State) :
    (divisorByte half s).2 = s ∨ (divisorByte half s).2 = s.setDrawn (s.drawn + 1) := by
  cases h : divisorFor s.setup.oorPolicy s.cfg.baud with
  | some d => exact .inl (by rw [divisorByte_of_some h])
  | none => exact .inr (by rw [divisorByte_of_none h])

@[simp] theorem divisorFor_inRange {b : BitVec 32} (h : inRange b.toNat = true) (w : OorPolicy) :
    divisorFor w b = some (BitVec.ofNat 16 (div b.toNat)) := by simp [divisorFor, h]

/-! ### The frame of a command -/

theorem commandStep_idle {i : Instr} {s : State} (h : s.stage = .idle) (f g : State → Result) :
    commandStep i s f g = f s := by simp [commandStep, h]

theorem stage_ne_idle_of_running {s : State} {i : Instr} (h : s.running = some i) : s.stage ≠ .idle := by
  intro hs
  simp [State.running, hs] at h

theorem commandStep_running {i : Instr} {s : State} (h : s.running = some i) (f g : State → Result) :
    commandStep i s f g = g s := by simp [commandStep, h, stage_ne_idle_of_running h]

/-- Everything a command's step can be, if it is a next state: its acceptance, or its next sequencer step. -/
theorem commandStep_next {i : Instr} {s t : State} {f g : State → Result} (h : commandStep i s f g = .next t) :
    (s.stage = .idle ∧ f s = .next t) ∨ (s.running = some i ∧ g s = .next t) := by
  unfold commandStep at h
  split at h
  · exact .inl ⟨‹_›, h⟩
  · split at h
    · exact .inr ⟨‹_›, h⟩
    · cases h

theorem requireReady_ready {p : Port} {s : State} (h : (s.unit p).ready = true) (k : State → Result) :
    requireReady p s k = k s := by simp [requireReady, h]

theorem requireReady_uninitialized {p : Port} {s : State} (h : (s.unit p).ready = false) (k : State → Result) :
    requireReady p s k = .fault (.uninitializedUse p) := by simp [requireReady, h, raise]

/-! ### The three commands, stage by stage -/

theorem running_init {s : State} (h : s.stage = .init1 ∨ s.stage = .init2 ∨ s.stage = .init3 ∨ s.stage = .init4 ∨
    s.stage = .init5) : s.running = some (.init s.port s.cfg) := by
  rcases h with h | h | h | h | h <;> simp [State.running, h]

theorem running_transmit {s : State} (h : s.stage = .txPoll ∨ s.stage = .txWrite) :
    s.running = some (.transmit s.port s.txb) := by rcases h with h | h <;> simp [State.running, h]

theorem running_receive {s : State} (h : s.stage = .rxPoll ∨ s.stage = .rxRead) :
    s.running = some (.receive s.port) := by rcases h with h | h <;> simp [State.running, h]

theorem initAdvance_init1 {s : State} (h : s.stage = .init1) :
    initAdvance s = .next ((s.updUnit s.port fun u => { u with ctrlb := 0 }).goto .init2) := by
  simp [initAdvance, h, regWrite]

theorem initAdvance_init2 {s : State} (h : s.stage = .init2) :
    initAdvance s = .next (((divisorByte hiByte s).2.updUnit s.port fun u =>
      { u with baudh := (divisorByte hiByte s).1 }).goto .init3) := by
  simp [initAdvance, h, regWrite]

theorem initAdvance_init3 {s : State} (h : s.stage = .init3) :
    initAdvance s = .next (((divisorByte loByte s).2.updUnit s.port fun u =>
      { u with baudl := (divisorByte loByte s).1 }).goto .init4) := by
  simp [initAdvance, h, regWrite]

theorem initAdvance_init4 {s : State} (h : s.stage = .init4) :
    initAdvance s = .next ((s.updUnit s.port fun u => { u with ctrlc := fmt s.cfg }).goto .init5) := by
  simp [initAdvance, h, regWrite]

theorem initAdvance_init5 {s : State} (h : s.stage = .init5) :
    initAdvance s = .next (((s.updUnit s.port fun u => { u with ctrlb := enb }).setReady s.port).respond .done) := by
  simp [initAdvance, h, regWrite]

theorem transmitAdvance_poll {s : State} (h : s.stage = .txPoll) :
    transmitAdvance s = .next (s.goto (if (s.unit s.port).dre then .txWrite else .txPoll)) := by
  simp [transmitAdvance, h, regReadEffect, regValue]

theorem transmitAdvance_write {s : State} (h : s.stage = .txWrite) :
    transmitAdvance s =
      .next ((s.updUnit s.port fun u => { u with txh := s.txb, dre := false }).respond .done) := by
  simp [transmitAdvance, h, regWrite]

theorem receiveAdvance_poll {s : State} (h : s.stage = .rxPoll) :
    receiveAdvance s = .next (s.goto (if (s.unit s.port).rxc then .rxRead else .rxPoll)) := by
  simp [receiveAdvance, h, regReadEffect, regValue]

theorem receiveAdvance_read {s : State} (h : s.stage = .rxRead) :
    receiveAdvance s = .next (((s.updUnit s.port fun u => { u with rxc := false }).setRsp
      (s.unit s.port).rxh).respond (.byte (s.unit s.port).rxh)) := by
  simp [receiveAdvance, h, regReadEffect, regValue]

end Sys2Proof.Machine
end

