-- ==== Sys2Proof/Laws/Line.lean ====
section
/-! SUPPORT. Everything a move of a line-side agent can do, said once (43_transmit_receive.md R107 to R115). -/

namespace Sys2Proof.Machine

theorem sized_of_some {p : Port} {s : State} {n : Nat} (h : (s.unit p).dataBits = some n) (c : Byte) :
    sized p c s = (c &&& charMask n, s) := by simp [sized, h]

theorem sized_of_none {p : Port} {s : State} (h : (s.unit p).dataBits = none) (c : Byte) :
    sized p c s = (Config.freeByte s.drawn, s.setDrawn (s.drawn + 1)) := by simp [sized, h, State.drawByte]

/-- All the state the character size can touch is the counter of free values. -/
theorem sized_state (p : Port) (c : Byte) (s : State) : ∃ k, (sized p c s).2 = s.setDrawn k := by
  cases h : (s.unit p).dataBits with
  | some n => exact ⟨s.drawn, by rw [sized_of_some h]; rfl⟩
  | none => exact ⟨s.drawn + 1, by rw [sized_of_none h]⟩

theorem State.appendIn_nil (s : State) (p : Port) : s.appendIn p [] = s := by
  cases p <;> simp [State.appendIn, State.updUnit, Ports.set, Ports.get]

/-- The effective configuration is a function of the four configuration registers (R87). -/
theorem effective_congr {u v : PortState} (h1 : v.ctrlb = u.ctrlb) (h2 : v.ctrlc = u.ctrlc)
    (h3 : v.baudh = u.baudh) (h4 : v.baudl = u.baudl) : v.effective = u.effective := by
  cases u
  cases v
  cases h1
  cases h2
  cases h3
  cases h4
  rfl

/-- The character size is a function of the two control registers (R87). -/
theorem dataBits_congr {u v : PortState} (h1 : v.ctrlb = u.ctrlb) (h2 : v.ctrlc = u.ctrlc) :
    v.dataBits = u.dataBits := by
  cases u
  cases v
  cases h1
  cases h2
  rfl

/-- Everything a delivery does: some characters are appended to the other port's arrivals, the character itself
when the line formats are equal (R113, R115). -/
theorem deliver_spec (s : State) (p : Port) (c : Byte) :
    ∃ cs k, s.deliver p c = (s.appendIn p.other cs).setDrawn k ∧
      (sameFormat (s.unit p) (s.unit p.other) = true → cs = [c] ∧ k = s.drawn) := by
  unfold State.deliver
  split
  · exact ⟨[c], s.drawn, rfl, fun _ => ⟨rfl, rfl⟩⟩
  · rename_i h
    exact ⟨_, _, rfl, fun h' => absurd h' h⟩

theorem lineTx_disabled {p : Port} {s : State} (h : lineTxEnabled p s = false) : lineTx p s = s := by
  simp [lineTx, h]

/-- Everything a step of `LineTx[p]` does (R107, R113): one character leaves, `DRE` is set, and under loopback
characters are appended to the other port's arrivals. -/
theorem lineTx_enabled {p : Port} {s : State} (h : lineTxEnabled p s = true) :
    ∃ c cs k, lineTx p s =
        (((s.updUnit p fun u => { u with lineOut := u.lineOut ++ [c], dre := true }).appendIn p.other cs).setDrawn k) ∧
      (s.setup.wiring = .free → cs = []) ∧
      (∀ n, (s.unit p).dataBits = some n → c = (s.unit p).txh &&& charMask n ∧
        (s.setup.wiring = .free → k = s.drawn) ∧
        (s.setup.wiring = .loopback → sameFormat (s.unit p) (s.unit p.other) = true → cs = [c] ∧ k = s.drawn)) := by
  obtain ⟨j, hj⟩ := sized_state p (s.unit p).txh s
  have hset : ∀ (x y : State), x.ports = y.ports → x.stage = y.stage → x.port = y.port → x.cfg = y.cfg →
      x.txb = y.txb → x.rsp = y.rsp → x.faulted = y.faulted → x.responses = y.responses → x.cmds = y.cmds →
      x.turns = y.turns → x.setup = y.setup → x.drawn = y.drawn → x = y := by
    intro x y
    cases x
    cases y
    simp_all
  cases hw : s.setup.wiring with
  | free =>
    refine ⟨(sized p (s.unit p).txh s).1, [], j, ?_, fun _ => rfl, ?_⟩
    · simp only [lineTx, h, if_true, hj, hw, State.appendIn_nil]
      cases p <;> simp [State.updUnit, State.setDrawn, Ports.set, Ports.get]
    · intro n hn
      rw [sized_of_some hn] at hj ⊢
      exact ⟨rfl, fun _ => (congrArg State.drawn hj).symm, fun h' => by cases h'⟩
  | loopback =>
    obtain ⟨cs, k, hd, hc⟩ := deliver_spec
      ((sized p (s.unit p).txh s).2.updUnit p fun u =>
        { u with lineOut := u.lineOut ++ [(sized p (s.unit p).txh s).1] }) p (sized p (s.unit p).txh s).1
    refine ⟨(sized p (s.unit p).txh s).1, cs, k, ?_, fun h' => (by cases h'), ?_⟩
    · simp only [lineTx, h, if_true, hw, hj] at hd ⊢
      rw [hd]
      cases p <;> simp [State.updUnit, State.setDrawn, State.appendIn, Ports.set, Ports.get, Port.other]
    · intro n hn
      rw [sized_of_some hn] at hc ⊢
      refine ⟨rfl, fun h' => (by cases h'), fun _ hs => hc ?_⟩
      rw [State.unit_updUnit_same, State.unit_updUnit_other, ← hs]
      rfl

theorem lineRx_nil {p : Port} {s : State} (h : (s.unit p).lineIn = []) : lineRx p s = s := by simp [lineRx, h]

theorem lineRx_discard {p : Port} {s : State} {c : Byte} {cs : List Byte} (h : (s.unit p).lineIn = c :: cs)
    (hd : (s.unit p).rxen = false ∨ (s.unit p).rxc = true) :
    lineRx p s = s.updUnit p fun u => { u with lineIn := cs } := by
  rcases hd with hd | hd <;> simp [lineRx, h, hd]

/-- A deposit of `LineRx[p]` (R108): the head of the arrivals, sized, becomes the waiting byte. -/
theorem lineRx_deposit {p : Port} {s : State} {c : Byte} {cs : List Byte} (h : (s.unit p).lineIn = c :: cs)
    (he : (s.unit p).rxen = true) (hr : (s.unit p).rxc = false) :
    ∃ v k, lineRx p s = (s.updUnit p fun u => { u with lineIn := cs, rxh := v, rxc := true }).setDrawn k ∧
      ∀ n, (s.unit p).dataBits = some n → v = c &&& charMask n ∧ k = s.drawn := by
  obtain ⟨k, hk⟩ := sized_state p c (s.updUnit p fun u => { u with lineIn := cs })
  refine ⟨(sized p c (s.updUnit p fun u => { u with lineIn := cs })).1, k, ?_, ?_⟩
  · simp only [lineRx, h, he, hr, hk]
    cases p <;> simp [State.updUnit, State.setDrawn, Ports.set, Ports.get]
  · intro n hn
    have hn' : ((s.updUnit p fun u => { u with lineIn := cs }).unit p).dataBits = some n := by
      rw [State.unit_updUnit_same]; exact hn
    rw [sized_of_some hn'] at hk ⊢
    exact ⟨rfl, (congrArg State.drawn hk).symm⟩

/-- All the state a step of `LineRx[p]` can touch: the receive side of its port, and the counter of free values. -/
theorem lineRx_frame (p : Port) (s : State) : ∃ l v r k,
    lineRx p s = (s.updUnit p fun u => { u with lineIn := l, rxh := v, rxc := r }).setDrawn k := by
  cases h : (s.unit p).lineIn with
  | nil =>
    refine ⟨(s.unit p).lineIn, (s.unit p).rxh, (s.unit p).rxc, s.drawn, ?_⟩
    rw [lineRx_nil h]
    cases p <;> rfl
  | cons c cs =>
    by_cases hd : (s.unit p).rxen = false ∨ (s.unit p).rxc = true
    · exact ⟨cs, (s.unit p).rxh, (s.unit p).rxc, s.drawn, lineRx_discard h hd⟩
    · simp only [not_or, Bool.not_eq_false, Bool.not_eq_true] at hd
      obtain ⟨v, k, hr, -⟩ := lineRx_deposit h hd.1 hd.2
      exact ⟨cs, v, true, k, hr⟩

theorem arrive_free {s : State} (h : s.setup.wiring = .free) (p : Port) (c : Byte) :
    arrive p c s = s.appendIn p [c] := by simp [arrive, h]

theorem arrive_loopback {s : State} (h : s.setup.wiring = .loopback) (p : Port) (c : Byte) : arrive p c s = s := by
  simp [arrive, h]

/-- An arrival appends to the port's arrivals, or does nothing (R21). -/
theorem arrive_spec (p : Port) (c : Byte) (s : State) :
    (s.setup.wiring = .free ∧ arrive p c s = s.appendIn p [c]) ∨ (s.setup.wiring = .loopback ∧ arrive p c s = s) := by
  cases h : s.setup.wiring with
  | free => exact .inl ⟨rfl, arrive_free h p c⟩
  | loopback => exact .inr ⟨rfl, arrive_loopback h p c⟩

end Sys2Proof.Machine
end

