-- ==== Sys2Proof/Laws/PerInstr.lean ====
section
/-! SUPPORT. Facts about every command as syntax, one lemma per constructor. Family `Header`: the low byte of a
command's word, which every format shares (30_encoding.md R51): `OP` names the format, `PORT` the port, `Z0` is 0. -/

namespace Sys2Proof.Laws.Header

/-- The `OP` code of a command (R51). -/
def opcode : Instr → BitVec 2
  | .init _ _ => 0#2
  | .transmit _ _ => 1#2
  | .receive _ => 2#2

/-- The fields common to all formats (R51). -/
def Statement (i : Instr) : Prop :=
  CW.op (encode i) = opcode i ∧ CW.portBit (encode i) = bitOfPort i.port ∧ CW.z0 (encode i) = 0#5

/-- The low bits of a concatenation are those of its less significant part. -/
theorem extract_low {n m : Nat} (x : BitVec n) (y : BitVec m) (a k : Nat) (h : a + k ≤ m) :
    (x ++ y).extractLsb' a k = y.extractLsb' a k := by
  apply BitVec.eq_of_getLsbD_eq
  intro i hi
  have : a + i < m := by omega
  simp [BitVec.getLsbD_append, this, hi]

theorem init (p : Port) (config : PortConfig) : Statement (.init p config) := by
  refine ⟨?_, ?_, ?_⟩ <;> simp only [CW.op, CW.portBit, CW.z0, encode] <;>
    repeat rw [extract_low _ _ _ _ (by omega)]
  all_goals cases p <;> rfl

theorem transmit (p : Port) (byte : Byte) : Statement (.transmit p byte) := by
  refine ⟨?_, ?_, ?_⟩ <;> simp only [CW.op, CW.portBit, CW.z0, encode] <;>
    repeat rw [extract_low _ _ _ _ (by omega)]
  all_goals cases p <;> rfl

theorem receive (p : Port) : Statement (.receive p) := by
  cases p <;> exact ⟨rfl, rfl, rfl⟩

end Sys2Proof.Laws.Header
end

