-- ==== Sys2Proof/Laws/Step.lean ====
section
/-! SUPPORT. What a step can do, said once: the sequencer's move (`SeqMove`, total), the host's move (`HostMove`), and
the step as the move of the agent whose turn it is. Invariants are proved over these, not over `step` unfolded. -/

namespace Sys2Proof.Machine

/-- Every step of the sequencer (10_state.md R20): it stays at `Idle`, or takes the one step its stage names. -/
inductive SeqMove (s : State) : State → Prop where
  | idle (h : s.stage = .idle) : SeqMove s s
  | init1 (h : s.stage = .init1) : SeqMove s ((s.updUnit s.port fun u => { u with ctrlb := 0 }).goto .init2)
  | init2 (h : s.stage = .init2) : SeqMove s (((divisorByte hiByte s).2.updUnit s.port fun u =>
      { u with baudh := (divisorByte hiByte s).1 }).goto .init3)
  | init3 (h : s.stage = .init3) : SeqMove s (((divisorByte loByte s).2.updUnit s.port fun u =>
      { u with baudl := (divisorByte loByte s).1 }).goto .init4)
  | init4 (h : s.stage = .init4) : SeqMove s ((s.updUnit s.port fun u => { u with ctrlc := fmt s.cfg }).goto .init5)
  | init5 (h : s.stage = .init5) :
      SeqMove s (((s.updUnit s.port fun u => { u with ctrlb := enb }).setReady s.port).respond .done)
  | txPoll (h : s.stage = .txPoll) : SeqMove s (s.goto (if (s.unit s.port).dre then .txWrite else .txPoll))
  | txWrite (h : s.stage = .txWrite) :
      SeqMove s ((s.updUnit s.port fun u => { u with txh := s.txb, dre := false }).respond .done)
  | rxPoll (h : s.stage = .rxPoll) : SeqMove s (s.goto (if (s.unit s.port).rxc then .rxRead else .rxPoll))
  | rxRead (h : s.stage = .rxRead) :
      SeqMove s (((s.updUnit s.port fun u => { u with rxc := false }).setRsp
        (s.unit s.port).rxh).respond (.byte (s.unit s.port).rxh))

theorem exec_init_running {s : State} (h : s.running = some (.init s.port s.cfg)) :
    exec (.init s.port s.cfg) s = initAdvance s := by
  simp only [exec, execInit, commandStep_running h]

theorem exec_transmit_running {s : State} (h : s.running = some (.transmit s.port s.txb)) :
    exec (.transmit s.port s.txb) s = transmitAdvance s := by
  simp only [exec, execTransmit, commandStep_running h]

theorem exec_receive_running {s : State} (h : s.running = some (.receive s.port)) :
    exec (.receive s.port) s = receiveAdvance s := by
  simp only [exec, execReceive, commandStep_running h]

/-- The sequencer always has a step, and it is one of `SeqMove`. -/
theorem seqTurn_spec (s : State) : ∃ t, seqTurn s = .next t ∧ SeqMove s t := by
  unfold seqTurn
  cases h : s.stage with
  | idle => exact ⟨s, by simp [State.running, h], .idle h⟩
  | init1 =>
    have hr := running_init (s := s) (by simp [h])
    exact ⟨_, by rw [hr]; exact (exec_init_running hr).trans (initAdvance_init1 h), .init1 h⟩
  | init2 =>
    have hr := running_init (s := s) (by simp [h])
    exact ⟨_, by rw [hr]; exact (exec_init_running hr).trans (initAdvance_init2 h), .init2 h⟩
  | init3 =>
    have hr := running_init (s := s) (by simp [h])
    exact ⟨_, by rw [hr]; exact (exec_init_running hr).trans (initAdvance_init3 h), .init3 h⟩
  | init4 =>
    have hr := running_init (s := s) (by simp [h])
    exact ⟨_, by rw [hr]; exact (exec_init_running hr).trans (initAdvance_init4 h), .init4 h⟩
  | init5 =>
    have hr := running_init (s := s) (by simp [h])
    exact ⟨_, by rw [hr]; exact (exec_init_running hr).trans (initAdvance_init5 h), .init5 h⟩
  | txPoll =>
    have hr := running_transmit (s := s) (by simp [h])
    exact ⟨_, by rw [hr]; exact (exec_transmit_running hr).trans (transmitAdvance_poll h), .txPoll h⟩
  | txWrite =>
    have hr := running_transmit (s := s) (by simp [h])
    exact ⟨_, by rw [hr]; exact (exec_transmit_running hr).trans (transmitAdvance_write h), .txWrite h⟩
  | rxPoll =>
    have hr := running_receive (s := s) (by simp [h])
    exact ⟨_, by rw [hr]; exact (exec_receive_running hr).trans (receiveAdvance_poll h), .rxPoll h⟩
  | rxRead =>
    have hr := running_receive (s := s) (by simp [h])
    exact ⟨_, by rw [hr]; exact (exec_receive_running hr).trans (receiveAdvance_read h), .rxRead h⟩

/-- If the sequencer's turn answers `t`, its step is one of `SeqMove`. -/
theorem seqTurn_next {s t : State} (h : seqTurn s = .next t) : SeqMove s t := by
  obtain ⟨u, hu, hm⟩ := seqTurn_spec s
  rw [hu] at h
  cases h
  exact hm

/-- Every next state of the host's move: it waits, or its next command is accepted (60_exceptions.md R132). -/
inductive HostMove (s : State) : State → Prop where
  | waits (h : s.stage ≠ .idle ∨ s.cmds = []) : HostMove s s
  | init {w : CmdWord} {rest : List CmdWord} {p : Port} {c : PortConfig} (h : s.stage = .idle)
      (hc : s.cmds = w :: rest) (hd : decode w = .ok (.init p c)) : HostMove s ((s.setCmds rest).latchInit p c)
  | transmit {w : CmdWord} {rest : List CmdWord} {p : Port} {b : Byte} (h : s.stage = .idle)
      (hc : s.cmds = w :: rest) (hd : decode w = .ok (.transmit p b)) (hr : (s.unit p).ready = true) :
      HostMove s ((s.setCmds rest).latchTransmit p b)
  | receive {w : CmdWord} {rest : List CmdWord} {p : Port} (h : s.stage = .idle)
      (hc : s.cmds = w :: rest) (hd : decode w = .ok (.receive p)) (hr : (s.unit p).ready = true) :
      HostMove s ((s.setCmds rest).latchReceive p)

/-- The acceptance of a command at `Idle`. -/
theorem exec_init_idle {s : State} (h : s.stage = .idle) (p : Port) (c : PortConfig) :
    exec (.init p c) s = .next (s.latchInit p c) := by
  simp only [exec, execInit, commandStep_idle h]

theorem exec_transmit_idle {s : State} (h : s.stage = .idle) (p : Port) (b : Byte) :
    exec (.transmit p b) s = requireReady p s fun u => .next (u.latchTransmit p b) := by
  simp only [exec, execTransmit, commandStep_idle h]

theorem exec_receive_idle {s : State} (h : s.stage = .idle) (p : Port) :
    exec (.receive p) s = requireReady p s fun u => .next (u.latchReceive p) := by
  simp only [exec, execReceive, commandStep_idle h]

theorem hostTurn_waits {s : State} (h : s.stage ≠ .idle ∨ s.cmds = []) : hostTurn s = .next s := by
  unfold hostTurn
  split
  · rename_i h1 h2
    rcases h with h | h
    · exact absurd h1 h
    · rw [h] at h2; cases h2
  · rfl

theorem hostTurn_hands {s : State} {w : CmdWord} {rest : List CmdWord} {i : Instr} (h : s.stage = .idle)
    (hc : s.cmds = w :: rest) (hd : decode w = .ok i) : hostTurn s = exec i (s.setCmds rest) := by
  simp [hostTurn, h, hc, hd]

theorem hostTurn_reserved {s : State} {w : CmdWord} {rest : List CmdWord} {e : Reserved} (h : s.stage = .idle)
    (hc : s.cmds = w :: rest) (hd : decode w = .error e) : hostTurn s = .fault (.reservedCommand w) := by
  simp [hostTurn, h, hc, hd, raise]

/-- If the host's turn answers `t`, its move is one of `HostMove`. -/
theorem hostTurn_next {s t : State} (h : hostTurn s = .next t) : HostMove s t := by
  by_cases hw : s.stage ≠ .idle ∨ s.cmds = []
  · rw [hostTurn_waits hw] at h
    cases h
    exact .waits hw
  · obtain ⟨hi, hn⟩ := not_or.mp hw
    have hi : s.stage = .idle := not_not.mp hi
    obtain ⟨w, rest, hc⟩ := List.exists_cons_of_ne_nil hn
    cases hd : decode w with
    | error e => rw [hostTurn_reserved hi hc hd] at h; cases h
    | ok i =>
      rw [hostTurn_hands hi hc hd] at h
      cases i with
      | init p c =>
        rw [exec_init_idle (by exact hi)] at h
        cases h
        exact .init hi hc hd
      | transmit p b =>
        rw [exec_transmit_idle (by exact hi)] at h
        cases hr : (s.unit p).ready with
        | true => rw [requireReady_ready (by exact hr)] at h; cases h; exact .transmit hi hc hd hr
        | false => rw [requireReady_uninitialized (by exact hr)] at h; cases h
      | receive p =>
        rw [exec_receive_idle (by exact hi)] at h
        cases hr : (s.unit p).ready with
        | true => rw [requireReady_ready (by exact hr)] at h; cases h; exact .receive hi hc hd hr
        | false => rw [requireReady_uninitialized (by exact hr)] at h; cases h

/-! ### The step -/

@[simp] theorem State.unit_useTurn (s : State) (p : Port) : s.useTurn.unit p = s.unit p := by
  unfold State.useTurn; split <;> rfl
@[simp] theorem State.stage_useTurn (s : State) : s.useTurn.stage = s.stage := by
  unfold State.useTurn; split <;> rfl
@[simp] theorem State.port_useTurn (s : State) : s.useTurn.port = s.port := by
  unfold State.useTurn; split <;> rfl
@[simp] theorem State.cfg_useTurn (s : State) : s.useTurn.cfg = s.cfg := by
  unfold State.useTurn; split <;> rfl
@[simp] theorem State.txb_useTurn (s : State) : s.useTurn.txb = s.txb := by
  unfold State.useTurn; split <;> rfl
@[simp] theorem State.rsp_useTurn (s : State) : s.useTurn.rsp = s.rsp := by
  unfold State.useTurn; split <;> rfl
@[simp] theorem State.faulted_useTurn (s : State) : s.useTurn.faulted = s.faulted := by
  unfold State.useTurn; split <;> rfl
@[simp] theorem State.responses_useTurn (s : State) : s.useTurn.responses = s.responses := by
  unfold State.useTurn; split <;> rfl
@[simp] theorem State.cmds_useTurn (s : State) : s.useTurn.cmds = s.cmds := by
  unfold State.useTurn; split <;> rfl
@[simp] theorem State.setup_useTurn (s : State) : s.useTurn.setup = s.setup := by
  unfold State.useTurn; split <;> rfl
@[simp] theorem State.running_useTurn (s : State) : s.useTurn.running = s.running := by
  unfold State.useTurn; split <;> rfl
@[simp] theorem State.seq_useTurn (s : State) : s.useTurn.seq = s.seq := by
  unfold State.useTurn; split <;> rfl

theorem step_eq_takeTurn {s : State} (h : s.faulted = false) : step s = takeTurn s.nextTurn s.useTurn := by
  simp [step, oneStep, h]

/-- A block reset is a step of every state, a `FAULTED` one among them (70_reset_and_hazards.md R140). -/
theorem step_reset {s : State} (h : s.nextTurn = .reset) : step s = .next s.useTurn.blockReset := by
  simp [step, oneStep, takeTurn, h]

/-- No other move is a step of a `FAULTED` state (60_exceptions.md R124). -/
theorem step_runFaulted {s : State} (h : s.faulted = true) (hn : s.nextTurn ≠ .reset) :
    step s = .refused .runFaulted := by simp [step, oneStep, h, hn]

/-- If a step answers `t`, the run is not over or the move is a block reset, and `t` is the move of the agent whose
turn it is. -/
theorem step_next {s t : State} (h : step s = .next t) :
    (s.faulted = false ∨ s.nextTurn = .reset) ∧ takeTurn s.nextTurn s.useTurn = .next t := by
  unfold step oneStep at h
  split at h
  · cases h
  · rename_i hn
    refine ⟨?_, h⟩
    cases hf : s.faulted with
    | false => exact .inl rfl
    | true => exact .inr (not_not.mp fun hr => hn ⟨hf, hr⟩)

theorem nextTurn_cons {s : State} {m : Turn} {ms : List Turn} (h : s.turns = m :: ms) : s.nextTurn = m := by
  simp [State.nextTurn, h]

theorem useTurn_cons {s : State} {m : Turn} {ms : List Turn} (h : s.turns = m :: ms) :
    s.useTurn = s.setTurns ms := by simp [State.useTurn, h]

end Sys2Proof.Machine

namespace Sys2Proof.Safety

open Sys2Proof.Machine

/-! ### Runs of given moves -/

@[simp] theorem runTurns_nil (s : State) : runTurns [] s = .next s := rfl

/-- A run goes on through a move that answers a next state. -/
theorem runTurns_cons {m : Turn} {s t : State} (h : takeTurn m s = .next t) (ms : List Turn) :
    runTurns (m :: ms) s = runTurns ms t := by simp [runTurns, h]

@[simp] theorem takesNoStep_nil (m : Turn) (hasStep : State → Prop) (s : State) : TakesNoStep m hasStep [] s := trivial

theorem takesNoStep_cons {m x : Turn} {hasStep : State → Prop} {ms : List Turn} {s : State} :
    TakesNoStep m hasStep (x :: ms) s ↔
      (x = m → ¬ hasStep s) ∧ ∀ t, takeTurn x s = .next t → TakesNoStep m hasStep ms t := Iff.rfl

/-- An agent that has no turn takes no step. -/
theorem takesNoStep_of_no_turn {m : Turn} (hasStep : State → Prop) {ms : List Turn} (h : ∀ x ∈ ms, x ≠ m)
    (s : State) : TakesNoStep m hasStep ms s := by
  induction ms generalizing s with
  | nil => trivial
  | cons x ms ih =>
    exact ⟨fun e => absurd e (h x (by simp)), fun t _ => ih (fun y hy => h y (by simp [hy])) t⟩

end Sys2Proof.Safety
end

