-- ==== Sys2Proof/Machine/Signals.lean ====
section
/-! DEFINITION. The output signals of D2 (92_eei_decisions.md) as views of State. "No rule depends on this
interface"; it adds no state. `rsp_valid` and `rsp_byte` are the entries of `State.responses`. -/

namespace Sys2Proof.Machine

/-- `cmd_ready`: `SEQ` is `Idle`. -/
def cmdReady (s : State) : Bool := decide (s.stage = .idle)

/-- The per-port outputs. -/
structure PortOut where
  /-- `tx_pending_p`: `TXEN` and not `DRE` -/
  txPending : Bool
  /-- `tx_char_p`: `TXH` masked to the character size; none where the size has no meaning (U7) -/
  txChar    : Option Byte
  /-- `rxen_p` -/
  rxen      : Bool
  /-- `txen_p` -/
  txen      : Bool
  /-- `div_p[15:0]` -/
  div       : DivWord
  /-- `pm_p[1:0]` as (high, low) -/
  pm        : Bool × Bool
  /-- `sbs_p` -/
  sbs       : Bool
  /-- `chsz_p[2:0]` as a number -/
  chsz      : Nat
  deriving DecidableEq, Repr

/-- The outputs of port `p`. -/
def portOut (p : Port) (s : State) : PortOut :=
  let u := s.unit p
  { txPending := lineTxEnabled p s
    txChar := u.dataBits.map fun n => u.txh &&& charMask n
    rxen := u.rxen
    txen := u.txen
    div := u.baudh ++ u.baudl
    pm := u.pm
    sbs := u.sbs
    chsz := 4 * u.chsz2.toNat + u.chsz }

end Sys2Proof.Machine
end

