-- ==== Sys2Proof/Tests/Slice0.lean ====
section
/-! SUPPORT. Small tests, with the spec's own vectors (95_test_vectors.md) as the expected results, and for each
statement with hypotheses a witness: a concrete state and operands that meet them all. -/

namespace Sys2Proof.Tests.Slice0

open Sys2Proof Sys2Proof.Machine Sys2Proof.Safety

/-! ### Well-formedness of a written command (30_encoding.md R61, R52) -/

theorem test_wf_reference : (Source.init .A 9600 8 1 .none).wf = true := by decide
theorem test_wf_baud : (Source.init .A 4294967296 8 1 .none).wf = false := by decide
theorem test_wf_data_bits : (Source.init .A 9600 256 1 .none).wf = false := by decide
theorem test_wf_stop_bits : (Source.init .A 9600 8 256 .none).wf = false := by decide
theorem test_wf_parity : (Source.init .A 9600 8 1 (.code 256)).wf = false := by decide
theorem test_wf_byte : (Source.transmit .A (.num 256)).wf = false := by decide
theorem test_wf_quoted : (Source.transmit .A (.quoted 'ā')).wf = false := by decide
/-- T6, V-E11: `transmit A, 'A'` is word 0x4101. -/
theorem test_assemble_quoted : (Source.transmit .A (.quoted 'A')).assemble.map encode = some 0x4101#64 := by decide
/-- T6, V-E6: `init A, 1200, 5, 2, ODD`. -/
theorem test_assemble_init : (Source.init .A 1200 5 2 .odd).assemble.map encode = some 0x000004B001020500#64 := by decide

/-! ### Decoding: words written out bit by bit from R52 to R54 -/

theorem test_decode_init : decode (0b0000000000000000001001011000000000000000000000010000100000000100#64) =
    .ok (.init .B { baud := 9600, dataBits := 8, stopBits := 1, parity := 0 }) := by rfl
theorem test_decode_transmit : decode (0b0000000000000000000000000000000000000000000000000100000100000101#64) =
    .ok (.transmit .B 0x41) := by rfl
theorem test_decode_receive : decode (0b0000000000000000000000000000000000000000000000000000000000000110#64) =
    .ok (.receive .B) := by rfl
/-- T6, V-E10: every operand value is legal. -/
theorem test_decode_init_all_ones : decode 0xFFFFFFFFFFFFFF00#64 =
    .ok (.init .A { baud := 4294967295, dataBits := 255, stopBits := 255, parity := 255 }) := by rfl
/-- T6, V-E24, V-E18, V-E21, V-E23. -/
theorem test_decode_reserved : decode 0xFFFFFFFFFFFFFFFF#64 = .error .z0NotZero ∧ decode 0x7#64 = .error .op3 ∧
    decode 0x14101#64 = .error .z1NotZero ∧ decode 0x102#64 = .error .z2NotZero := ⟨rfl, rfl, rfl, rfl⟩
/-- opcode_table.json: the three rows. -/
theorem test_decode_table : decodeTableWord 64 0x0 = some (.init .A { baud := 0, dataBits := 0, stopBits := 0, parity := 0 })
    ∧ decodeTableWord 64 0x1 = some (.transmit .A 0) ∧ decodeTableWord 64 0x2 = some (.receive .A) := ⟨rfl, rfl, rfl⟩

/-! ### The pure functions (T4, T5, T7) -/

theorem test_div_truncates : div 92161 = 3 ∧ div 1792 = 256 ∧ div 1793 = 255 := by decide
theorem test_wrap32 : divWrap32 1 = some 0x07FF#16 ∧ divWrap32 460801 = some 0xFFFF#16 ∧ divWrap32 0 = none ∧
    divWrap32 268435756 = some 0x05FF#16 := ⟨rfl, rfl, rfl, rfl⟩
theorem test_fmt : fmt { baud := 0, dataBits := 5, stopBits := 2, parity := 1 } = 0x38#8 ∧
    fmt { baud := 0, dataBits := 9, stopBits := 1, parity := 2 } = 0x26#8 ∧
    fmt { baud := 0, dataBits := 4, stopBits := 2, parity := 0 } = 0x0E#8 := by decide

/-! ### Small states -/

/-- A port Ready at 9600/8/1/NONE (95_test_vectors.md, V-I1). -/
def readyPort : PortState :=
  { PortState.reset with ready := true, baudl := 0x2F, ctrlc := 0x06, ctrlb := 0x18 }

/-- Both ports Ready at 9600/8/1/NONE, `Idle`, in the given wiring. -/
def readyState (w : Wiring) : State :=
  { State.reset with
    ports := { A := readyPort, B := readyPort }
    setup := { State.reset.setup with wiring := w } }

/-- The reference configuration, 9600/8/1/NONE. -/
def reference : PortConfig := { baud := 9600, dataBits := 8, stopBits := 1, parity := 0 }

/-- The sequencer at a stage of a command on port A, both ports Ready. -/
def atStage (x : Stage) : State := { readyState .free with stage := x, cfg := reference, txb := 0x41 }

/-- The sequencer at `Init5` of the reference `INIT` on port A, the first four writes done. -/
def atInit5 : State :=
  { readyState .free with
    ports := { A := { readyPort with ctrlb := 0 }, B := readyPort }, stage := .init5, cfg := reference }

/-- Port A is at 7/1/EVEN with byte 0xC3 waiting to be sent (T10, V-L2). -/
def sevenBits (w : Wiring) : State :=
  { readyState w with ports := { A := { readyPort with ctrlc := 0x24, txh := 0xC3, dre := false }, B := readyPort } }

/-- Characters 0x41 and 0x42 still to arrive at port A (T10, V-L7). -/
def arriving (r : Bool) : State :=
  { readyState .free with ports := { A := { readyPort with lineIn := [0x41, 0x42], rxc := r }, B := readyPort } }

/-! ### The commands (T8, T9, T10, T11) -/

/-- T8, V-I3: the divisor bytes of `init A, 1200, ...`. -/
theorem test_init_high_byte : (divisorByte hiByte ((atStage .init2).latchInit .A { reference with baud := 1200 })).1 = 0x01#8
    ∧ (divisorByte loByte ((atStage .init3).latchInit .A { reference with baud := 1200 })).1 = 0x7F#8 := ⟨rfl, rfl⟩
/-- T8, V-I1: the last write enables the port, and it is Ready. -/
theorem test_init_last_write : ∃ t, exec (.init .A reference) atInit5 = .next t ∧
    (t.unit .A).ctrlb = 0x18#8 ∧ (t.unit .A).ready = true ∧ t.responses = [.done] := ⟨_, rfl, rfl, rfl, rfl⟩
/-- T9, V-T3: a waiting received byte is not disturbed by `TxWrite`. -/
theorem test_transmit_write : ∃ t, exec (.transmit .A 0x41) (atStage .txWrite) = .next t ∧
    (t.unit .A).txh = 0x41#8 ∧ (t.unit .A).dre = false ∧ (t.unit .A).rxc = false := ⟨_, rfl, rfl, rfl, rfl⟩
/-- T11, V-X1: the acceptance faults on a port in reset state. -/
theorem test_transmit_uninitialized : exec (.transmit .A 0x41) State.reset = .fault (.uninitializedUse .A) := rfl
/-- T9, V-R1: the byte is answered and `RXC` cleared. -/
theorem test_receive_read : ∃ t, exec (.receive .A)
    { atStage .rxRead with ports := { A := { readyPort with rxc := true, rxh := 0x41 }, B := readyPort } } = .next t ∧
    t.responses = [.byte 0x41#8] ∧ (t.unit .A).rxc = false ∧ t.rsp = 0x41#8 := ⟨_, rfl, rfl, rfl, rfl⟩
/-- T11, V-X2. -/
theorem test_receive_uninitialized : exec (.receive .B) State.reset = .fault (.uninitializedUse .B) := rfl
/-- T10, V-L2: seven data bits send 0x43 of 0xC3. -/
theorem test_lineTx_seven_bits : ((lineTx .A (sevenBits .free)).unit .A).lineOut = [0x43#8] := by decide
/-- T10, V-L8: an overrun discards the newer character. -/
theorem test_lineRx_overrun : ((lineRx .A (arriving true)).unit .A).lineIn = [0x42#8] ∧
    ((lineRx .A (arriving true)).unit .A).rxh = 0x00#8 := by decide
/-- T10, V-L12: a loopback departure arrives at the other port. -/
theorem test_loopback : ((lineTx .A { readyState .loopback with
    ports := { A := { readyPort with txh := 0x5A, dre := false }, B := readyPort } }).unit .B).lineIn = [0x5A#8] := by decide
/-- D2: the outputs of port A in T10, V-L2. -/
theorem test_signals : (portOut .A (sevenBits .free)).txChar = some 0x43#8 ∧
    (portOut .A (sevenBits .free)).txPending = true ∧ (portOut .A (sevenBits .free)).div = 47#16 ∧
    (portOut .A (sevenBits .free)).chsz = 2 := by decide
/-- The step after `withFetchWord` runs the table's command, and its reserved words fault. -/
theorem test_fetch_init : ∃ t, step (State.reset.withFetchWord 64 0x0000258000010800) = .next t ∧
    t.seq = .init1 .A ∧ t.cfg = reference := ⟨_, rfl, rfl, rfl⟩
theorem test_fetch_reserved : step (State.reset.withFetchWord 64 0x14101) = .fault (.reservedCommand 0x14101#64) := rfl

/-! ### Witnesses of the invariant -/

/-- A Ready port with an ordinary format meets the port part of the invariant. -/
theorem portInv_of_ready {s : State} {p : Port} (hr : (s.unit p).ready = true)
    (hf : formatByte (s.unit p).ctrlc = true)
    (he : (s.unit p).ctrlb = if configuring s p then 0x00#8 else 0x18#8) : PortInv s p := by
  refine ⟨?_, fun _ => hf, fun _ => hr, fun _ => hr⟩
  rw [he, hr]
  cases configuring s p <;> rfl

/-- The invariant of a state outside the last steps of `INIT`, both ports Ready. -/
theorem inv_of_ready {s : State} (hr : ∀ p, (s.unit p).ready = true) (hf : ∀ p, formatByte (s.unit p).ctrlc = true)
    (he : ∀ p, (s.unit p).ctrlb = if configuring s p then 0x00#8 else 0x18#8)
    (hs : s.stage ≠ .init3 ∧ s.stage ≠ .init4 ∧ s.stage ≠ .init5)
    (hw : s.stage = .txWrite → (s.unit s.port).dre = true) (hx : s.stage = .rxRead → (s.unit s.port).rxc = true) :
    Inv s := by
  refine ⟨portInv_of_ready (hr _) (hf _) (he _), portInv_of_ready (hr _) (hf _) (he _), fun _ => hr _, hw, hx, ?_, ?_, ?_⟩
    <;> simp [hs]

theorem inv_readyState (w : Wiring) : Inv (readyState w) := by
  cases w <;> exact inv_of_ready (fun p => by cases p <;> decide) (fun p => by cases p <;> decide)
    (fun p => by cases p <;> decide) (by decide) (by decide) (by decide)

theorem inv_arriving (r : Bool) : Inv (arriving r) := by
  cases r <;> exact inv_of_ready (fun p => by cases p <;> decide) (fun p => by cases p <;> decide)
    (fun p => by cases p <;> decide) (by decide) (by decide) (by decide)

theorem inv_sevenBits : Inv (sevenBits .free) :=
  inv_of_ready (fun p => by cases p <;> decide) (fun p => by cases p <;> decide) (fun p => by cases p <;> decide)
    (by decide) (by decide) (by decide)

theorem divisor_reference : divisorFor .draw reference.baud = some 47#16 := rfl

theorem inv_atInit5 : Inv atInit5 := by
  refine ⟨portInv_of_ready rfl (by decide) (by decide), portInv_of_ready rfl (by decide) (by decide), fun _ => rfl,
    by decide, by decide, fun _ d hd => ?_, fun _ d hd => ?_, fun _ => by decide⟩
  · cases divisor_reference.symm.trans hd
    rfl
  · cases divisor_reference.symm.trans hd
    rfl

theorem inv_atTxWrite : Inv (atStage .txWrite) :=
  inv_of_ready (fun p => by cases p <;> decide) (fun p => by cases p <;> decide) (fun p => by cases p <;> decide)
    (by decide) (by decide) (by decide)

/-- `TRANSMIT` on port A polls while a byte of port A still waits. -/
def polling : State :=
  { atStage .txPoll with ports := { A := { readyPort with txh := 0x31, dre := false }, B := readyPort } }

theorem inv_polling : Inv polling :=
  inv_of_ready (fun p => by cases p <;> decide) (fun p => by cases p <;> decide) (fun p => by cases p <;> decide)
    (by decide) (by decide) (by decide)

/-- `RECEIVE` on port A at `RxRead`, byte 0x41 waiting. -/
def reading : State :=
  { atStage .rxRead with ports := { A := { readyPort with rxc := true, rxh := 0x41 }, B := readyPort } }

theorem inv_reading : Inv reading :=
  inv_of_ready (fun p => by cases p <;> decide) (fun p => by cases p <;> decide) (fun p => by cases p <;> decide)
    (by decide) (by decide) (by decide)

/-- The state with turns and command words given. -/
def withInputs (s : State) (ms : List Turn) (ws : List CmdWord) : State := { s with turns := ms, cmds := ws }

/-- The invariant does not look at the turns or the commands still to come. -/
theorem inv_withInputs {s : State} (h : Inv s) (ms : List Turn) (ws : List CmdWord) : Inv (withInputs s ms ws) :=
  ⟨⟨h.portA.1, h.portA.2, h.portA.3, h.portA.4⟩, ⟨h.portB.1, h.portB.2, h.portB.3, h.portB.4⟩, h.inUse, h.writeEmpty,
    h.readFull, h.highWritten, h.lowWritten, h.formatWritten⟩

/-! ### Witnesses: every hypothesis of a statement is met by something -/

theorem witness_EncodeInvertsDecode : decode 0x4101#64 = .ok (.transmit .A 0x41) := rfl

theorem witness_DivisorRange : (1200 ≤ 1200 ∧ 1200 ≤ 115200) ∧ (1200 ≤ 115200 ∧ 115200 ≤ 115200) ∧
    (1200 ≤ 1792 ∧ 1792 ≤ 1793 ∧ 1793 ≤ 115200) := by decide

theorem witness_OutOfRangeDivisorPolicies :
    (1200 ≤ (1200#32).toNat ∧ (115200#32).toNat ≤ 115200) ∧ ((1199#32).toNat < 1200 ∧ 115200 < (115201#32).toNat) ∧
    16 * (268435456#32).toNat % 2 ^ 32 = 0 ∧ 115200 < (268435456#32).toNat ∧ 16 * (1199#32).toNat % 2 ^ 32 ≠ 0 := by
  decide

theorem witness_Encoders : (8#8 ≠ 5#8 ∧ 8#8 ≠ 6#8 ∧ 8#8 ≠ 7#8) ∧ (255#8 ≠ 1#8 ∧ 255#8 ≠ 2#8) ∧ 0#8 ≠ 1#8 := by decide

theorem witness_EffectiveConfigurationReadsBack : readyPort.ctrlc = fmt reference ∧ readyPort.ctrlb = 0x18#8 := by decide

theorem witness_TwelveDistinctAddresses :
    addr State.reset.setup.regMap .A .data = addr State.reset.setup.regMap .A .data ∧
    (∀ i j, i < 6 → j < 6 → 0 + i ≠ 6 + j) ∧ ∀ p r, 12 ≠ addr State.reset.setup.regMap p r := by
  refine ⟨rfl, fun i j hi hj => by omega, ?_⟩
  intro p r
  cases p <;> cases r <;> decide

theorem witness_Stages : (readyState .free).stage = .idle ∧ (atStage .init1).stage = .init1 ∧
    (atStage .init2).stage = .init2 ∧ (atStage .init3).stage = .init3 ∧ (atStage .init4).stage = .init4 ∧
    atInit5.stage = .init5 ∧ polling.stage = .txPoll ∧ (atStage .txWrite).stage = .txWrite ∧
    (atStage .rxPoll).stage = .rxPoll ∧ reading.stage = .rxRead := by decide

theorem witness_InitWritesDivisorBytes :
    divisorFor (atStage .init2).setup.oorPolicy (atStage .init2).cfg.baud = some 47#16 ∧
    divisorFor (atStage .init3).setup.oorPolicy (atStage .init3).cfg.baud = some 47#16 := ⟨rfl, rfl⟩

theorem witness_InitCompletesInFiveSteps : (readyState .free).stage = .idle ∧ 1200 ≤ reference.baud.toNat ∧
    reference.baud.toNat ≤ 115200 := by decide

theorem witness_InitRecombinesDivisor : Inv atInit5 ∧ atInit5.stage = .init5 ∧ 1200 ≤ atInit5.cfg.baud.toNat ∧
    atInit5.cfg.baud.toNat ≤ 115200 ∧ divisorFor atInit5.setup.oorPolicy atInit5.cfg.baud = some 47#16 :=
  ⟨inv_atInit5, rfl, by decide, by decide, rfl⟩

/-- For the frames of `INIT`: every stage of it answers a next state. -/
theorem witness_InitFrames : (∃ t, exec (.init .A reference) (readyState .free) = .next t) ∧
    (∃ t, exec (.init .A reference) (atStage .init1) = .next t ∧ 0 ≠ addr (atStage .init1).setup.regMap .A .ctrlb) ∧
    (∃ t, exec (.init .A reference) (atStage .init2) = .next t ∧ 0 ≠ addr (atStage .init2).setup.regMap .A .baudh) ∧
    (∃ t, exec (.init .A reference) (atStage .init3) = .next t ∧ 0 ≠ addr (atStage .init3).setup.regMap .A .baudl) ∧
    (∃ t, exec (.init .A reference) (atStage .init4) = .next t ∧ 0 ≠ addr (atStage .init4).setup.regMap .A .ctrlc) ∧
    (∃ t, exec (.init .A reference) atInit5 = .next t ∧ 0 ≠ addr atInit5.setup.regMap .A .ctrlb) :=
  ⟨⟨_, rfl⟩, ⟨_, rfl, by decide⟩, ⟨_, rfl, by decide⟩, ⟨_, rfl, by decide⟩, ⟨_, rfl, by decide⟩, ⟨_, rfl, by decide⟩⟩

theorem witness_TransferAcceptance : (readyState .free).stage = .idle ∧ ((readyState .free).unit .A).ready = true ∧
    State.reset.stage = .idle ∧ (State.reset.unit .A).ready = false := by decide

theorem witness_TransmitWritesByte : (atStage .txWrite).stage = .txWrite ∧ Inv (atStage .txWrite) := ⟨rfl, inv_atTxWrite⟩

theorem witness_ReceiveReadsByte : reading.stage = .rxRead ∧ Inv reading := ⟨rfl, inv_reading⟩

theorem witness_TransmitCompletesWhenEmpty : (readyState .free).stage = .idle ∧
    ((readyState .free).unit .A).ready = true ∧ ((readyState .free).unit .A).dre = true := by decide

theorem witness_ReceiveCompletesWhenFull : (arriving true).stage = .idle ∧ ((arriving true).unit .A).ready = true ∧
    ((arriving true).unit .A).rxc = true := by decide

/-- For the frames of `TRANSMIT` and `RECEIVE`: an acceptance, a poll and the last step, and an address that is not
`STATUS`. -/
theorem witness_TransferFrame : (∃ t, exec (.transmit .A 0x41) (readyState .free) = .next t) ∧
    (∃ t, exec (.transmit .A 0x41) polling = .next t) ∧ (∃ t, exec (.transmit .A 0x41) (atStage .txWrite) = .next t) ∧
    (∃ t, exec (.receive .A) (readyState .free) = .next t) ∧ (∃ t, exec (.receive .A) (atStage .rxPoll) = .next t) ∧
    (∃ t, exec (.receive .A) reading = .next t) ∧ 5 ≠ addr reading.setup.regMap .A .status :=
  ⟨⟨_, rfl⟩, ⟨_, rfl⟩, ⟨_, rfl⟩, ⟨_, rfl⟩, ⟨_, rfl⟩, ⟨_, rfl⟩, by decide⟩

theorem witness_OverlappingCommandRefused : polling.running = some (.transmit .A 0x41) ∧
    Instr.receive .B ≠ Instr.transmit .A 0x41 := by decide

theorem witness_StepRunsDecodedCommand :
    (withInputs State.reset [.host] [0x4101#64]).faulted = false ∧
    (withInputs State.reset [.host] [0x4101#64]).turns = [.host] ∧
    (withInputs State.reset [.host] [0x4101#64]).stage = .idle ∧
    (withInputs State.reset [.host] [0x4101#64]).cmds = [0x4101#64] ∧
    decode 0x4101#64 = .ok (.transmit .A 0x41) ∧ decode 0x3#64 = .error .op3 := ⟨rfl, rfl, rfl, rfl, rfl, rfl⟩

theorem witness_StepContinuesOrWaits :
    (withInputs polling [.seq] []).faulted = false ∧ (withInputs polling [.seq] []).turns = [.seq] ∧
    (withInputs polling [.seq] []).running = some (.transmit .A 0x41) ∧
    (withInputs State.reset [.seq] []).turns = [.seq] ∧ (withInputs State.reset [.seq] []).stage = .idle ∧
    (withInputs polling [.host] [0x2#64]).turns = [.host] ∧ (withInputs polling [.host] [0x2#64]).stage ≠ .idle ∧
    (withInputs State.reset [.host] []).turns = [.host] ∧ (withInputs State.reset [.host] []).cmds = [] := by decide

theorem witness_FetchedWordRuns : decodeTableWord 64 0x6 = some (.receive .B) := rfl

theorem witness_LineTxTakesByte : lineTxEnabled .A (sevenBits .free) = true ∧ (sevenBits .free).setup.wiring = .free ∧
    ((sevenBits .free).unit .A).dataBits = some 7 ∧ (State.reset.unit .A).ctrlb.getLsbD 3 = false ∧
    ((readyState .free).unit .A).dre = true := by decide

/-- Port A waits to send, both ports at the same format, a loopback pair (T10, V-L12). -/
def sending : State :=
  { readyState .loopback with ports := { A := { readyPort with txh := 0x5A, dre := false }, B := readyPort } }

theorem witness_LoopbackDelivery : lineTxEnabled .A sending = true ∧ sending.setup.wiring = .loopback ∧
    (sending.unit .A).dataBits = some 8 ∧ (sending.unit .A).effective.isSome = true ∧
    (sending.unit .A).effective = (sending.unit .B).effective := by decide

/-- A character arrives at port A before any `INIT`, its receiver disabled (T10, V-L9). -/
def listening : State :=
  { State.reset with ports := { A := { PortState.reset with lineIn := [0x41] }, B := PortState.reset } }

theorem witness_LineRxDepositsOrDiscards : ((arriving false).unit .A).lineIn = [0x41#8, 0x42#8] ∧
    ((arriving false).unit .A).ctrlb.getLsbD 4 = true ∧ ((arriving false).unit .A).rxc = false ∧
    ((arriving false).unit .A).dataBits = some 8 ∧ ((arriving true).unit .A).lineIn = [0x41#8, 0x42#8] ∧
    ((arriving true).unit .A).rxc = true ∧ (listening.unit .A).lineIn = [0x41#8] ∧
    (listening.unit .A).ctrlb.getLsbD 4 = false ∧ ((readyState .free).unit .A).lineIn = [] ∧
    (readyState .free).setup.wiring = .free ∧ (readyState .loopback).setup.wiring = .loopback := by decide

theorem witness_TransmittedBytesInOrder :
    Inv (withInputs (atStage .txWrite) [.seq] []) ∧ (∃ t, step (withInputs (atStage .txWrite) [.seq] []) = .next t) ∧
    (withInputs (atStage .txWrite) [.seq] []).nextTurn ≠ .reset ∧
    ((withInputs (atStage .txWrite) [.seq] []).unit .A).dataBits = some 8 ∧
    Inv (withInputs (sevenBits .free) [.lineTx .A] []) ∧
    (∃ t, step (withInputs (sevenBits .free) [.lineTx .A] []) = .next t) ∧
    ((withInputs (sevenBits .free) [.lineTx .A] []).unit .A).dataBits = some 7 :=
  ⟨inv_withInputs inv_atTxWrite _ _, ⟨_, rfl⟩, by decide, by decide, inv_withInputs inv_sevenBits _ _, ⟨_, rfl⟩,
    by decide⟩

theorem witness_ReceivedBytesInOrder :
    Inv (withInputs (arriving false) [.lineRx .A] []) ∧
    (∃ t, step (withInputs (arriving false) [.lineRx .A] []) = .next t) ∧
    (withInputs (arriving false) [.lineRx .A] []).nextTurn ≠ .reset ∧
    ((withInputs (arriving false) [.lineRx .A] []).unit .A).dataBits = some 8 ∧
    Inv (withInputs reading [.seq] []) ∧ (∃ t, step (withInputs reading [.seq] []) = .next t) ∧
    (withInputs reading [.seq] []).seq = .rxRead .A ∧ ((withInputs reading [.seq] []).unit .A).dataBits = some 8 :=
  ⟨inv_withInputs (inv_arriving false) _ _, ⟨_, rfl⟩, by decide, by decide, inv_withInputs inv_reading _ _, ⟨_, rfl⟩,
    by decide, by decide⟩

/-- For the rules over every step: a step of each agent answers a next state, an Idle one and a busy one. -/
theorem witness_StepAnswers :
    (∃ t, step (withInputs State.reset [.host] [0x0#64]) = .next t) ∧ (∃ t, step (withInputs atInit5 [.seq] []) = .next t) ∧
    (∃ t, step (withInputs sending [.lineTx .A] []) = .next t) ∧
    (∃ t, step (withInputs (arriving false) [.lineRx .A] []) = .next t) ∧
    (∃ t, step (withInputs (readyState .free) [.arrive .A 0x41] []) = .next t) ∧
    (∃ t, step (withInputs polling [.reset] []) = .next t) :=
  ⟨⟨_, rfl⟩, ⟨_, rfl⟩, ⟨_, rfl⟩, ⟨_, rfl⟩, ⟨_, rfl⟩, ⟨_, rfl⟩⟩

theorem witness_FlagChanges :
    ((sending.unit .A).dre = false ∧ ∃ t, step (withInputs sending [.lineTx .A] []) = .next t ∧ (t.unit .A).dre = true) ∧
    (((atStage .txWrite).unit .A).dre = true ∧
      ∃ t, step (withInputs (atStage .txWrite) [.seq] []) = .next t ∧ (t.unit .A).dre = false) ∧
    (((arriving false).unit .A).rxc = false ∧
      ∃ t, step (withInputs (arriving false) [.lineRx .A] []) = .next t ∧ (t.unit .A).rxc = true) ∧
    ((reading.unit .A).rxc = true ∧ ∃ t, step (withInputs reading [.seq] []) = .next t ∧ (t.unit .A).rxc = false) :=
  ⟨⟨rfl, _, rfl, rfl⟩, ⟨rfl, _, rfl, rfl⟩, ⟨rfl, _, rfl, rfl⟩, ⟨rfl, _, rfl, rfl⟩⟩

theorem witness_FaultsExactlyAtAcceptance :
    step (withInputs State.reset [.host] [0x4101#64]) = .fault (.uninitializedUse .A) ∧
    step (withInputs State.reset [.host] [0x3#64]) = .fault (.reservedCommand 0x3#64) ∧
    State.reset.markFaulted.faulted = true := ⟨rfl, rfl, rfl⟩

/-- A `FAULTED` run, with the host's turn and with a reset next. -/
theorem witness_FaultOnlyMarksTheRun : (withInputs polling.markFaulted [.host] []).faulted = true ∧
    (withInputs polling.markFaulted [.host] []).nextTurn ≠ .reset ∧
    (withInputs polling.markFaulted [.reset] []).faulted = true ∧
    (withInputs polling.markFaulted [.reset] []).nextTurn = .reset := by decide

/-- R140: a reset ends a `FAULTED` run in the reset state. -/
theorem test_reset_of_faulted_run : ∃ t, step (withInputs polling.markFaulted [.reset] []) = .next t ∧
    t.faulted = false ∧ t.seq = .idle ∧ (t.unit .A).dre = true ∧ (t.unit .A).ready = false :=
  ⟨_, rfl, rfl, rfl, rfl, rfl⟩

/-- The run is over with nothing on the line, and with a character still to arrive. -/
theorem witness_RunOverIsQuiet : runOver (readyState .free) = true ∧ runOver (arriving false) = true ∧
    ((arriving false).unit .A).lineIn ≠ [] := by decide

theorem witness_StepKeepsInvariant : Inv (readyState .free) ∧
    ∃ t, takeTurn .host (readyState .free) = .next t := ⟨inv_readyState .free, _, rfl⟩

theorem witness_BlockReset : sending.setup.wiring = .loopback ∧ polling.setup.wiring = .free := by decide

/-- The hang of T20: `RECEIVE` polls, the line is silent, and the turns of `LineRx[A]` come all the same. -/
theorem silent_line : TakesNoStep (.lineRx .A) (fun u => (u.unit .A).lineIn ≠ [])
    [.lineRx .A, .seq, .host, .lineRx .A] (atStage .rxPoll) :=
  ⟨fun _ => by decide, fun _ h => by
    cases h
    exact ⟨nofun, fun _ h => by
      cases h
      exact ⟨nofun, fun _ h => by
        cases h
        exact ⟨fun _ => by decide, fun _ _ => trivial⟩⟩⟩⟩

/-- `TRANSMIT` polls, and no turn is `LineTx[A]`'s. -/
theorem stuck_transmitter : TakesNoStep (.lineTx .A) (fun u => lineTxEnabled .A u = true)
    [.seq, .host, .lineRx .A, .lineTx .B] polling :=
  takesNoStep_of_no_turn _ (by decide) _

theorem witness_UnreadyPortBlocksForever :
    (∀ m ∈ [Turn.seq, .host, .lineRx .A, .lineTx .B], m ≠ .reset) ∧ polling.stage = .txPoll ∧
    (polling.unit polling.port).dre = false ∧
    TakesNoStep (.lineTx polling.port) (fun u => lineTxEnabled polling.port u = true)
      [.seq, .host, .lineRx .A, .lineTx .B] polling ∧
    (∀ m ∈ [Turn.lineRx .A, .seq, .host, .lineRx .A], m ≠ .reset) ∧ (atStage .rxPoll).stage = .rxPoll ∧
    ((atStage .rxPoll).unit (atStage .rxPoll).port).rxc = false ∧
    TakesNoStep (.lineRx (atStage .rxPoll).port) (fun u => (u.unit (atStage .rxPoll).port).lineIn ≠ [])
      [.lineRx .A, .seq, .host, .lineRx .A] (atStage .rxPoll) :=
  ⟨by decide, rfl, rfl, stuck_transmitter, by decide, rfl, rfl, silent_line⟩

/-- The host, the sequencer, `LineTx[A]` and `LineRx[B]` in turn, for ever. -/
def roundRobin (n : Nat) : Turn :=
  if n % 4 = 0 then .host else if n % 4 = 1 then .seq else if n % 4 = 2 then .lineTx .A else .lineRx .B

theorem roundRobin_sequencer : SequencerRuns roundRobin := by
  refine ⟨fun n => ⟨4 * n + 1, by omega, ?_⟩, fun n => ?_⟩
  · have : (4 * n + 1) % 4 = 1 := by omega
    simp [roundRobin, this]
  · unfold roundRobin
    split
    · decide
    · split
      · decide
      · split <;> decide

theorem roundRobin_host : HostRuns roundRobin := fun n => ⟨4 * n, by omega, by simp [roundRobin]⟩

theorem roundRobin_lineTx (s : State) : FairLineTx roundRobin s .A := fun n _ => ⟨4 * n + 2, by omega, by
  have : (4 * n + 2) % 4 = 2 := by omega
  simp [roundRobin, this]⟩

theorem roundRobin_lineRx (s : State) : FairLineRx roundRobin s .B := fun n _ => ⟨4 * n + 3, by omega, by
  have : (4 * n + 3) % 4 = 3 := by omega
  simp [roundRobin, this]⟩

theorem witness_FairTransmitTerminates : Inv polling ∧ polling.stage = .txPoll ∧ SequencerRuns roundRobin ∧
    FairLineTx roundRobin polling polling.port :=
  ⟨inv_polling, rfl, roundRobin_sequencer, roundRobin_lineTx _⟩

/-- The start of program P2 (T14) with both ports configured: 0xA5 is to be sent from A and received on B. -/
def roundTrip : State :=
  withInputs (readyState .loopback) [.host, .seq, .seq, .lineTx .A, .lineRx .B, .host, .seq, .seq]
    [encode (.transmit .A 0xA5), encode (.receive .B)]

theorem inv_roundTrip : Inv roundTrip := inv_withInputs (inv_readyState .loopback) _ _

theorem witness_LoopbackRoundTrip : Inv roundTrip ∧ roundTrip.stage = .idle ∧ roundTrip.setup.wiring = .loopback ∧
    (roundTrip.unit .A).ready = true ∧ (roundTrip.unit .B).ready = true ∧ (roundTrip.unit .A).effective.isSome = true ∧
    (roundTrip.unit .A).effective = (roundTrip.unit .B).effective ∧ (roundTrip.unit .A).dataBits = some 8 ∧
    (roundTrip.unit .A).dre = true ∧ (roundTrip.unit .B).rxc = false ∧ (roundTrip.unit .B).lineIn = [] ∧
    roundTrip.cmds = [encode (.transmit .A 0xA5), encode (.receive .B)] ∧
    ∃ t, Host.Core.run core 8 roundTrip = .next t ∧ t.responses = roundTrip.responses ++ [.done, .byte 0xA5#8] :=
  ⟨inv_roundTrip, rfl, rfl, rfl, rfl, rfl, rfl, rfl, rfl, rfl, rfl, rfl, _, rfl, rfl⟩

theorem witness_FairLoopbackRoundTripCompletes : HostRuns roundRobin ∧ SequencerRuns roundRobin ∧
    FairLineTx roundRobin roundTrip .A ∧ FairLineRx roundRobin roundTrip .B ∧ Inv roundTrip :=
  ⟨roundRobin_host, roundRobin_sequencer, roundRobin_lineTx _, roundRobin_lineRx _, inv_roundTrip⟩

end Sys2Proof.Tests.Slice0
end

/-! PROOFS. The end of a run (00_scope.md R8): which agents then have no move, and that every other move leaves the run
over. -/

namespace Sys2Proof.Proofs

open Sys2Proof.Machine Sys2Proof.Safety

/-! ### What `runOver` reads -/

theorem runOver_iff (s : State) : runOver s = true ↔
    s.cmds = [] ∧ s.stage = .idle ∧ (∀ p, (s.unit p).dre = true) ∧ s.faulted = false := by
  have hdre : (∀ p, (s.unit p).dre = true) ↔ s.ports.A.dre = true ∧ s.ports.B.dre = true :=
    ⟨fun h => ⟨h .A, h .B⟩, fun ⟨hA, hB⟩ p => by cases p <;> assumption⟩
  rw [hdre]
  simp [runOver, and_assoc]

/-- Whether a run is over does not depend on the number of free values used. -/
@[simp] theorem runOver_setDrawn (s : State) (n : Nat) : runOver (s.setDrawn n) = runOver s := rfl

/-- Of a port, the end of a run depends on `DRE` only. -/
theorem runOver_updUnit {s : State} {p : Port} {f : PortState → PortState}
    (hf : (f (s.unit p)).dre = (s.unit p).dre) : runOver (s.updUnit p f) = runOver s := by
  have hdre (q : Port) : ((s.updUnit p f).unit q).dre = (s.unit q).dre := by
    by_cases hq : q = p
    · rw [hq, State.unit_updUnit_same, hf]
    · rw [State.unit_updUnit_ne s f hq]
  rw [Bool.eq_iff_iff, runOver_iff, runOver_iff]
  simp [hdre]

/-- A block reset ends every run whose host has no further command (70_reset_and_hazards.md R140; log 4). -/
theorem runOver_blockReset {s : State} (hc : s.cmds = []) : runOver s.blockReset = true :=
  (runOver_iff _).mpr ⟨hc, rfl, s.blockReset_dre, rfl⟩

/-! ### The moves -/

/-- At `Idle` the sequencer has no step (10_state.md R20). -/
theorem seqTurn_idle {s : State} (h : s.stage = .idle) : seqTurn s = .next s := by
  simp [seqTurn, State.running, h]

/-- With its holding register empty a transmitter has no step (43_transmit_receive.md R107). -/
theorem lineTx_empty {p : Port} {s : State} (h : (s.unit p).dre = true) : lineTx p s = s :=
  lineTx_disabled (by simp [lineTxEnabled, h])

/-- All the state an arrival can touch: the arrivals of its port. -/
theorem arrive_frame (p : Port) (c : Byte) (s : State) :
    ∃ l, arrive p c s = s.updUnit p fun u => { u with lineIn := l } := by
  rcases arrive_spec p c s with ⟨-, h⟩ | ⟨-, h⟩
  · exact ⟨_, h⟩
  · exact ⟨(s.unit p).lineIn, h.trans (by cases p <;> rfl)⟩

theorem runOver_lineRx (p : Port) (s : State) : runOver (lineRx p s) = runOver s := by
  obtain ⟨l, v, r, k, h⟩ := lineRx_frame p s
  rw [h, runOver_setDrawn, runOver_updUnit rfl]

theorem responses_lineRx (p : Port) (s : State) : (lineRx p s).responses = s.responses := by
  obtain ⟨l, v, r, k, h⟩ := lineRx_frame p s
  rw [h]
  rfl

theorem runOver_arrive (p : Port) (c : Byte) (s : State) : runOver (arrive p c s) = runOver s := by
  obtain ⟨l, h⟩ := arrive_frame p c s
  rw [h, runOver_updUnit rfl]

theorem responses_arrive (p : Port) (c : Byte) (s : State) : (arrive p c s).responses = s.responses := by
  obtain ⟨l, h⟩ := arrive_frame p c s
  rw [h]
  rfl

/-! ### After the end of a run -/

theorem hostTurn_of_runOver {s : State} (h : runOver s = true) : hostTurn s = .next s :=
  hostTurn_waits (.inr ((runOver_iff s).mp h).1)

theorem seqTurn_of_runOver {s : State} (h : runOver s = true) : seqTurn s = .next s :=
  seqTurn_idle ((runOver_iff s).mp h).2.1

theorem lineTx_of_runOver {s : State} (h : runOver s = true) (p : Port) : lineTx p s = s := by
  obtain ⟨-, -, hdre, -⟩ := (runOver_iff s).mp h
  exact lineTx_empty (hdre p)

/-- Every move from a run that is over answers a state, in which it still is, and answers the host nothing. -/
theorem takeTurn_keeps_runOver {s : State} (h : runOver s = true) (m : Turn) :
    ∃ t, takeTurn m s = .next t ∧ runOver t = true ∧ t.responses = s.responses := by
  cases m with
  | host => exact ⟨s, hostTurn_of_runOver h, h, rfl⟩
  | seq => exact ⟨s, seqTurn_of_runOver h, h, rfl⟩
  | lineTx p => exact ⟨s, congrArg _ (lineTx_of_runOver h p), h, rfl⟩
  | lineRx p => exact ⟨lineRx p s, rfl, (runOver_lineRx p s).trans h, responses_lineRx p s⟩
  | arrive p c => exact ⟨arrive p c s, rfl, (runOver_arrive p c s).trans h, responses_arrive p c s⟩
  | reset => exact ⟨s.blockReset, rfl, runOver_blockReset ((runOver_iff s).mp h).1, rfl⟩

/-- Settles O52, from what `runOver` reads and the frames of `LineRx` and of an arrival. -/
theorem runOverIsQuiet : Obligations.RunOverIsQuiet := by
  intro s h
  refine ⟨hostTurn_of_runOver h, seqTurn_of_runOver h, fun p => congrArg _ (lineTx_of_runOver h p),
    takeTurn_keeps_runOver h, fun p => ?_, fun p c => ?_⟩
  · obtain ⟨l, v, r, k, hl⟩ := lineRx_frame p s
    exact ⟨l, v, r, k, congrArg _ hl⟩
  · obtain ⟨l, hl⟩ := arrive_frame p c s
    exact ⟨l, congrArg _ hl⟩

end Sys2Proof.Proofs

/-! PROOFS. The register state (10_state.md): what each move can do to a port's registers and flags (R13, R29), and the
invariant of the block (R19, R23), which every move keeps. -/

namespace Sys2Proof.Proofs

open Sys2Proof.Machine Sys2Proof.Safety

/-! ### What a sequencer step changes -/

@[simp] theorem unit_divisorByte (half : DivWord → Byte) (s : State) (p : Port) :
    (divisorByte half s).2.unit p = s.unit p := by
  rcases divisorByte_state half s with h | h <;> rw [h]
  rfl

/-- A sequencer step leaves the latches `PORT` and `CFG` and the parameters as they were (10_state.md R25). -/
theorem latches_of_seqMove {s t : State} (m : SeqMove s t) : t.port = s.port ∧ t.cfg = s.cfg ∧ t.setup = s.setup := by
  have hdiv (half : DivWord → Byte) : (divisorByte half s).2.port = s.port ∧ (divisorByte half s).2.cfg = s.cfg ∧
      (divisorByte half s).2.setup = s.setup := by
    rcases divisorByte_state half s with h | h <;> rw [h] <;> exact ⟨rfl, rfl, rfl⟩
  cases m with
  | init2 => exact hdiv hiByte
  | init3 => exact hdiv loByte
  | _ => exact ⟨rfl, rfl, rfl⟩

/-- A sequencer step touches the port of the command in progress only (10_state.md R10). -/
theorem unit_other_of_seqMove {s t : State} (m : SeqMove s t) {q : Port} (hq : q ≠ s.port) : t.unit q = s.unit q := by
  obtain rfl := Port.eq_other_of_ne hq
  cases m <;> simp [State.unit_setReady_ne]

/-- `READY` under a sequencer step: only the last step of `INIT` changes it (10_state.md R13). -/
theorem ready_of_seqMove {s t : State} (m : SeqMove s t) (p : Port) :
    (t.unit p).ready = (s.unit p).ready ∨ ((t.unit p).ready = true ∧ s.seq = .init5 p) := by
  by_cases hp : p = s.port
  · subst hp
    cases m with
    | init5 h => exact .inr ⟨by simp, by simp [State.seq, h]⟩
    | _ => exact .inl (by simp)
  · exact .inl (by rw [unit_other_of_seqMove m hp])

/-- `DRE` under a sequencer step: only `TxWrite` changes it (10_state.md R29). -/
theorem dre_of_seqMove {s t : State} (m : SeqMove s t) (p : Port) :
    (t.unit p).dre = (s.unit p).dre ∨ ((t.unit p).dre = false ∧ s.seq = .txWrite p) := by
  by_cases hp : p = s.port
  · subst hp
    cases m with
    | txWrite h => exact .inr ⟨by simp, by simp [State.seq, h]⟩
    | _ => exact .inl (by simp)
  · exact .inl (by rw [unit_other_of_seqMove m hp])

/-- `RXC` under a sequencer step: only `RxRead` changes it (10_state.md R29). -/
theorem rxc_of_seqMove {s t : State} (m : SeqMove s t) (p : Port) :
    (t.unit p).rxc = (s.unit p).rxc ∨ ((t.unit p).rxc = false ∧ s.seq = .rxRead p) := by
  by_cases hp : p = s.port
  · subst hp
    cases m with
    | rxRead h => exact .inr ⟨by simp, by simp [State.seq, h]⟩
    | _ => exact .inl (by simp)
  · exact .inl (by rw [unit_other_of_seqMove m hp])

/-! ### What a host's move and a line-side move change -/

/-- The acceptance of a command touches no port. -/
theorem unit_of_hostMove {s t : State} (m : HostMove s t) (p : Port) : t.unit p = s.unit p := by cases m <;> rfl

/-- What a line-side move leaves of a port: `READY` and the configuration registers, and both flags if they are set;
`RXC` rises only with the receiver enabled (43_transmit_receive.md R107 to R109). -/
structure UnitKept (u v : PortState) : Prop where
  ready : v.ready = u.ready
  ctrlb : v.ctrlb = u.ctrlb
  ctrlc : v.ctrlc = u.ctrlc
  baudh : v.baudh = u.baudh
  baudl : v.baudl = u.baudl
  dre   : u.dre = true → v.dre = true
  rxc   : u.rxc = true → v.rxc = true
  rises : v.rxc = true → u.rxc = true ∨ u.rxen = true

/-- What a line-side move leaves of the block: the sequencer, its latches and the parameters, and of each port what
`UnitKept` says. -/
structure LineKept (s t : State) : Prop where
  stage : t.stage = s.stage
  port  : t.port = s.port
  cfg   : t.cfg = s.cfg
  setup : t.setup = s.setup
  unit  : ∀ p, UnitKept (s.unit p) (t.unit p)

theorem UnitKept.refl (u : PortState) : UnitKept u u := ⟨rfl, rfl, rfl, rfl, rfl, id, id, .inl⟩

theorem UnitKept.trans {u v w : PortState} (h : UnitKept u v) (k : UnitKept v w) : UnitKept u w where
  ready := k.ready.trans h.ready
  ctrlb := k.ctrlb.trans h.ctrlb
  ctrlc := k.ctrlc.trans h.ctrlc
  baudh := k.baudh.trans h.baudh
  baudl := k.baudl.trans h.baudl
  dre := k.dre ∘ h.dre
  rxc := k.rxc ∘ h.rxc
  rises hw := by
    have hen : v.rxen = u.rxen := by rw [PortState.rxen, h.ctrlb, PortState.rxen]
    rcases k.rises hw with hv | hv
    · exact h.rises hv
    · exact .inr (hen ▸ hv)

theorem LineKept.refl (s : State) : LineKept s s := ⟨rfl, rfl, rfl, rfl, fun _ => .refl _⟩

theorem LineKept.trans {s t r : State} (h : LineKept s t) (k : LineKept t r) : LineKept s r where
  stage := k.stage.trans h.stage
  port := k.port.trans h.port
  cfg := k.cfg.trans h.cfg
  setup := k.setup.trans h.setup
  unit p := (h.unit p).trans (k.unit p)

theorem lineKept_useTurn (s : State) : LineKept s s.useTurn :=
  ⟨s.stage_useTurn, s.port_useTurn, s.cfg_useTurn, s.setup_useTurn, fun p => s.unit_useTurn p ▸ .refl _⟩

theorem lineKept_setDrawn (s : State) (k : Nat) : LineKept s (s.setDrawn k) :=
  ⟨rfl, rfl, rfl, rfl, fun _ => .refl _⟩

theorem lineKept_updUnit {s : State} {p : Port} {f : PortState → PortState}
    (hf : UnitKept (s.unit p) (f (s.unit p))) : LineKept s (s.updUnit p f) := by
  refine ⟨rfl, rfl, rfl, rfl, fun q => ?_⟩
  by_cases hq : q = p
  · subst hq
    rwa [State.unit_updUnit_same]
  · rw [State.unit_updUnit_ne s f hq]
    exact .refl _

theorem lineKept_lineTx (p : Port) (s : State) : LineKept s (lineTx p s) := by
  cases h : lineTxEnabled p s with
  | false => rw [lineTx_disabled h]; exact .refl s
  | true =>
    obtain ⟨c, cs, k, ht, -⟩ := lineTx_enabled h
    have hsent : LineKept s (s.updUnit p fun u => { u with lineOut := u.lineOut ++ [c], dre := true }) :=
      lineKept_updUnit ⟨rfl, rfl, rfl, rfl, rfl, fun _ => rfl, id, .inl⟩
    have happend (t : State) : LineKept t (t.appendIn p.other cs) :=
      lineKept_updUnit ⟨rfl, rfl, rfl, rfl, rfl, id, id, .inl⟩
    rw [ht]
    exact (hsent.trans (happend _)).trans (lineKept_setDrawn _ k)

theorem lineKept_lineRx (p : Port) (s : State) : LineKept s (lineRx p s) := by
  cases h : (s.unit p).lineIn with
  | nil => rw [lineRx_nil h]; exact .refl s
  | cons c cs =>
    by_cases hd : (s.unit p).rxen = false ∨ (s.unit p).rxc = true
    · rw [lineRx_discard h hd]
      exact lineKept_updUnit ⟨rfl, rfl, rfl, rfl, rfl, id, id, .inl⟩
    · simp only [not_or, Bool.not_eq_false, Bool.not_eq_true] at hd
      obtain ⟨hen, hrxc⟩ := hd
      obtain ⟨v, k, ht, -⟩ := lineRx_deposit h hen hrxc
      rw [ht]
      exact (lineKept_updUnit ⟨rfl, rfl, rfl, rfl, rfl, id, fun _ => rfl, fun _ => .inr hen⟩).trans
        (lineKept_setDrawn _ k)

theorem lineKept_arrive (p : Port) (c : Byte) (s : State) : LineKept s (arrive p c s) := by
  obtain ⟨l, ht⟩ := arrive_frame p c s
  rw [ht]
  exact lineKept_updUnit ⟨rfl, rfl, rfl, rfl, rfl, id, id, .inl⟩

/-! ### Who changes `READY`, `DRE` and `RXC` -/

/-- A part `g` of the port units that `f` leaves alone is left alone by an update of one port with `f`. -/
theorem updUnit_keeps {α : Type} (g : PortState → α) {s : State} {q : Port} {f : PortState → PortState}
    (p : Port) (hf : ∀ u, g (f u) = g u := by intro _; rfl) : g ((s.updUnit q f).unit p) = g (s.unit p) := by
  by_cases hp : p = q
  · rw [hp, State.unit_updUnit_same, hf]
  · rw [State.unit_updUnit_ne s f hp]

/-- `LineTx[q]` changes no `DRE` but that of its port, which it sets (10_state.md R29). -/
theorem dre_lineTx (q : Port) (s : State) (p : Port) :
    ((lineTx q s).unit p).dre = (s.unit p).dre ∨ (((lineTx q s).unit p).dre = true ∧ q = p) := by
  cases h : lineTxEnabled q s with
  | false => exact .inl (by rw [lineTx_disabled h])
  | true =>
    obtain ⟨c, cs, k, ht, -⟩ := lineTx_enabled h
    rw [ht, State.setDrawn_unit, State.appendIn, updUnit_keeps PortState.dre p]
    by_cases hp : p = q
    · subst hp
      exact .inr ⟨by rw [State.unit_updUnit_same], rfl⟩
    · exact .inl (by rw [State.unit_updUnit_ne _ _ hp])

theorem rxc_lineTx (q : Port) (s : State) (p : Port) : ((lineTx q s).unit p).rxc = (s.unit p).rxc := by
  cases h : lineTxEnabled q s with
  | false => rw [lineTx_disabled h]
  | true =>
    obtain ⟨c, cs, k, ht, -⟩ := lineTx_enabled h
    rw [ht, State.setDrawn_unit, State.appendIn, updUnit_keeps PortState.rxc p, updUnit_keeps PortState.rxc p]

theorem dre_lineRx (q : Port) (s : State) (p : Port) : ((lineRx q s).unit p).dre = (s.unit p).dre := by
  obtain ⟨l, v, r, k, ht⟩ := lineRx_frame q s
  rw [ht, State.setDrawn_unit, updUnit_keeps PortState.dre p]

/-- `LineRx[q]` changes no `RXC` but that of its port, which it never clears (10_state.md R29). -/
theorem rxc_lineRx (q : Port) (s : State) (p : Port) :
    ((lineRx q s).unit p).rxc = (s.unit p).rxc ∨ (((lineRx q s).unit p).rxc = true ∧ q = p) := by
  by_cases hp : p = q
  · subst hp
    cases hr : (s.unit p).rxc with
    | true => exact .inl (((lineKept_lineRx p s).unit p).rxc hr)
    | false =>
      cases ht : ((lineRx p s).unit p).rxc with
      | true => exact .inr ⟨rfl, rfl⟩
      | false => exact .inl rfl
  · obtain ⟨l, v, r, k, ht⟩ := lineRx_frame q s
    exact .inl (by rw [ht, State.setDrawn_unit, State.unit_updUnit_ne _ _ hp])

theorem dre_arrive (q : Port) (c : Byte) (s : State) (p : Port) :
    ((arrive q c s).unit p).dre = (s.unit p).dre := by
  obtain ⟨l, ht⟩ := arrive_frame q c s
  rw [ht, updUnit_keeps PortState.dre p]

theorem rxc_arrive (q : Port) (c : Byte) (s : State) (p : Port) :
    ((arrive q c s).unit p).rxc = (s.unit p).rxc := by
  obtain ⟨l, ht⟩ := arrive_frame q c s
  rw [ht, updUnit_keeps PortState.rxc p]

/-- `READY` under the move of any agent (10_state.md R13). -/
theorem ready_of_takeTurn {m : Turn} {s t : State} (h : takeTurn m s = .next t) (p : Port) :
    (t.unit p).ready = (s.unit p).ready ∨ ((t.unit p).ready = true ∧ m = .seq ∧ s.seq = .init5 p) ∨
      ((t.unit p).ready = false ∧ m = .reset) := by
  cases m with
  | host => exact .inl (by rw [unit_of_hostMove (hostTurn_next h)])
  | seq =>
    rcases ready_of_seqMove (seqTurn_next h) p with hr | ⟨hr, hs⟩
    · exact .inl hr
    · exact .inr (.inl ⟨hr, rfl, hs⟩)
  | lineTx q => cases h; exact .inl ((lineKept_lineTx q s).unit p).ready
  | lineRx q => cases h; exact .inl ((lineKept_lineRx q s).unit p).ready
  | arrive q c => cases h; exact .inl ((lineKept_arrive q c s).unit p).ready
  | reset => cases h; exact .inr (.inr ⟨s.blockReset_ready p, rfl⟩)

/-- `DRE` under the move of any agent (10_state.md R29). -/
theorem dre_of_takeTurn {m : Turn} {s t : State} (hm : m ≠ .reset) (h : takeTurn m s = .next t) (p : Port) :
    (t.unit p).dre = (s.unit p).dre ∨ ((t.unit p).dre = true ∧ m = .lineTx p) ∨
      ((t.unit p).dre = false ∧ m = .seq ∧ s.seq = .txWrite p) := by
  cases m with
  | host => exact .inl (by rw [unit_of_hostMove (hostTurn_next h)])
  | seq =>
    rcases dre_of_seqMove (seqTurn_next h) p with hd | ⟨hd, hs⟩
    · exact .inl hd
    · exact .inr (.inr ⟨hd, rfl, hs⟩)
  | lineTx q =>
    cases h
    rcases dre_lineTx q s p with hd | ⟨hd, rfl⟩
    · exact .inl hd
    · exact .inr (.inl ⟨hd, rfl⟩)
  | lineRx q => cases h; exact .inl (dre_lineRx q s p)
  | arrive q c => cases h; exact .inl (dre_arrive q c s p)
  | reset => exact absurd rfl hm

/-- `RXC` under the move of any agent (10_state.md R29). -/
theorem rxc_of_takeTurn {m : Turn} {s t : State} (hm : m ≠ .reset) (h : takeTurn m s = .next t) (p : Port) :
    (t.unit p).rxc = (s.unit p).rxc ∨ ((t.unit p).rxc = true ∧ m = .lineRx p) ∨
      ((t.unit p).rxc = false ∧ m = .seq ∧ s.seq = .rxRead p) := by
  cases m with
  | host => exact .inl (by rw [unit_of_hostMove (hostTurn_next h)])
  | seq =>
    rcases rxc_of_seqMove (seqTurn_next h) p with hr | ⟨hr, hs⟩
    · exact .inl hr
    · exact .inr (.inr ⟨hr, rfl, hs⟩)
  | lineTx q => cases h; exact .inl (rxc_lineTx q s p)
  | lineRx q =>
    cases h
    rcases rxc_lineRx q s p with hr | ⟨hr, rfl⟩
    · exact .inl hr
    · exact .inr (.inl ⟨hr, rfl⟩)
  | arrive q c => cases h; exact .inl (rxc_arrive q c s p)
  | reset => exact absurd rfl hm

/-- Settles O47, from what each agent's move does to `READY`. -/
theorem readyOnlyByInit : Obligations.ReadyOnlyByInit := by
  intro s t p h
  simpa using ready_of_takeTurn (step_next h).2 p

/-- Settles O48, from what each agent's move does to `DRE` and to `RXC`. -/
theorem flagsChangeOnlyAsListed : Obligations.FlagsChangeOnlyAsListed := by
  intro s t p h hm
  have hdre := dre_of_takeTurn hm (step_next h).2 p
  have hrxc := rxc_of_takeTurn hm (step_next h).2 p
  simp only [State.unit_useTurn, State.seq_useTurn] at hdre hrxc
  exact ⟨fun hs ht => by simpa [hs, ht] using hdre, fun hs ht => by simpa [hs, ht] using hdre,
    fun hs ht => by simpa [hs, ht] using hrxc, fun hs ht => by simpa [hs, ht] using hrxc⟩

/-! ### The invariant, read off one port and one stage -/

/-- The stages between the first and the last register write of an `INIT`. -/
def configuringAt (x : Stage) : Bool := x = .init2 || x = .init3 || x = .init4 || x = .init5

theorem configuring_eq (s : State) (p : Port) : configuring s p = (decide (s.port = p) && configuringAt s.stage) := by
  unfold configuring
  cases s.stage <;> rfl

theorem configuring_port (s : State) : configuring s s.port = configuringAt s.stage := by simp [configuring_eq]

theorem configuring_ne {s : State} {p : Port} (h : p ≠ s.port) : configuring s p = false := by
  simp [configuring_eq, Ne.symm h]

theorem configuring_outside {s : State} (h : configuringAt s.stage = false) (p : Port) :
    configuring s p = false := by simp [configuring_eq, h]

/-- `PortInv` of one unit, of which `c` says whether an `INIT` is configuring it. -/
structure UnitInv (u : PortState) (c : Bool) : Prop where
  enables   : u.ctrlb = if u.ready && !c then 0x18#8 else 0x00#8
  format    : u.ready = true → formatByte u.ctrlc = true
  sendReady : u.dre = false → u.ready = true
  readReady : u.rxc = true → u.ready = true

theorem portInv_iff (s : State) (p : Port) : PortInv s p ↔ UnitInv (s.unit p) (configuring s p) :=
  ⟨fun ⟨h1, h2, h3, h4⟩ => ⟨h1, h2, h3, h4⟩, fun ⟨h1, h2, h3, h4⟩ => ⟨h1, h2, h3, h4⟩⟩

/-- A receiver is enabled on a Ready port only (10_state.md R23). -/
theorem UnitInv.ready_of_rxen {u : PortState} {c : Bool} (h : UnitInv u c) (hen : u.rxen = true) :
    u.ready = true := by
  cases hr : u.ready with
  | true => rfl
  | false =>
    have hb := h.enables
    rw [hr] at hb
    simp [PortState.rxen, hb] at hen

theorem UnitInv.of_kept {u v : PortState} {c : Bool} (h : UnitInv u c) (k : UnitKept u v) : UnitInv v c where
  enables := by rw [k.ctrlb, k.ready]; exact h.enables
  format := by rw [k.ctrlc, k.ready]; exact h.format
  sendReady hv := by
    rw [k.ready]
    exact h.sendReady (Bool.eq_false_iff.mpr fun hu => by simp [k.dre hu] at hv)
  readReady hv := by
    rw [k.ready]
    exact (k.rises hv).elim h.readReady h.ready_of_rxen

/-- `v` is the byte half an `INIT` of `c` writes, where there is a divisor (42_init.md R92). -/
def HalfWritten (w : OorPolicy) (c : PortConfig) (half : DivWord → Byte) (v : Byte) : Prop :=
  ∀ d, divisorFor w c.baud = some d → v = half d

theorem halfWritten_divisorByte (half : DivWord → Byte) (s : State) :
    HalfWritten s.setup.oorPolicy s.cfg half (divisorByte half s).1 := fun _ hd => by rw [divisorByte_of_some hd]

/-- What `Inv` says of the unit `u` of the command in progress, stage by stage. -/
def StageInv (w : OorPolicy) (c : PortConfig) (u : PortState) : Stage → Prop
  | .idle => True
  | .init1 => True
  | .init2 => True
  | .init3 => HalfWritten w c hiByte u.baudh
  | .init4 => HalfWritten w c hiByte u.baudh ∧ HalfWritten w c loByte u.baudl
  | .init5 => HalfWritten w c hiByte u.baudh ∧ HalfWritten w c loByte u.baudl ∧ u.ctrlc = fmt c
  | .txPoll => u.ready = true
  | .txWrite => u.ready = true ∧ u.dre = true
  | .rxPoll => u.ready = true
  | .rxRead => u.ready = true ∧ u.rxc = true

theorem StageInv.of_kept {w : OorPolicy} {c : PortConfig} {u v : PortState} {x : Stage} (h : StageInv w c u x)
    (k : UnitKept u v) : StageInv w c v x := by
  obtain ⟨hready, -, hctrlc, hbaudh, hbaudl, hdre, hrxc, -⟩ := k
  cases x with
  | idle => trivial
  | init1 => trivial
  | init2 => trivial
  | txWrite => exact ⟨hready.trans h.1, hdre h.2⟩
  | rxRead => exact ⟨hready.trans h.1, hrxc h.2⟩
  | _ => simpa only [StageInv, hready, hctrlc, hbaudh, hbaudl] using h

/-- The invariant, port by port and by the stage. -/
theorem inv_iff (s : State) : Inv s ↔ (∀ p, UnitInv (s.unit p) (configuring s p)) ∧
    StageInv s.setup.oorPolicy s.cfg (s.unit s.port) s.stage := by
  constructor
  · rintro ⟨hA, hB, hready, hdre, hrxc, hhigh, hlow, hfmt⟩
    refine ⟨fun p => (portInv_iff s p).mp (by cases p <;> assumption), ?_⟩
    cases hs : s.stage with
    | idle => trivial
    | init1 => trivial
    | init2 => trivial
    | init3 => exact hhigh (.inl hs)
    | init4 => exact ⟨hhigh (.inr (.inl hs)), hlow (.inl hs)⟩
    | init5 => exact ⟨hhigh (.inr (.inr hs)), hlow (.inr hs), hfmt hs⟩
    | txPoll => exact hready (.inl hs)
    | txWrite => exact ⟨hready (.inr (.inl hs)), hdre hs⟩
    | rxPoll => exact hready (.inr (.inr (.inl hs)))
    | rxRead => exact ⟨hready (.inr (.inr (.inr hs))), hrxc hs⟩
  · rintro ⟨hports, hstage⟩
    refine ⟨(portInv_iff s .A).mpr (hports .A), (portInv_iff s .B).mpr (hports .B), ?_, ?_, ?_, ?_, ?_, ?_⟩ <;>
      intro hs
    · rcases hs with hs | hs | hs | hs <;> rw [hs] at hstage
      exacts [hstage, hstage.1, hstage, hstage.1]
    · rw [hs] at hstage
      exact hstage.2
    · rw [hs] at hstage
      exact hstage.2
    · rcases hs with hs | hs | hs <;> rw [hs] at hstage
      exacts [hstage, hstage.1, hstage.1]
    · rcases hs with hs | hs <;> rw [hs] at hstage
      exacts [hstage.2, hstage.2.1]
    · rw [hs] at hstage
      exact hstage.2.2

/-! ### The invariant after reset -/

/-- An `Idle` block whose ports hold the reset values of 10_state.md R28 meets the invariant, whatever the registers
hold that R28 calls unspecified. -/
theorem inv_of_reset {s : State} (hs : s.stage = .idle)
    (hp : ∀ p, (s.unit p).ready = false ∧ (s.unit p).ctrlb = 0 ∧ (s.unit p).dre = true ∧ (s.unit p).rxc = false) :
    Inv s := by
  refine (inv_iff s).mpr ⟨fun p => ?_, by rw [hs]; trivial⟩
  obtain ⟨hready, hctrlb, hdre, hrxc⟩ := hp p
  exact ⟨by simp [hready, hctrlb], by simp [hready], by simp [hdre], by simp [hrxc]⟩

theorem unit_reset (p : Port) : State.reset.unit p = PortState.reset := by cases p <;> rfl

/-- Settles O53: reset leaves the values of R28. -/
theorem invariantAtReset : Obligations.InvariantAtReset :=
  inv_of_reset rfl fun p => by rw [unit_reset]; exact ⟨rfl, rfl, rfl, rfl⟩

/-- Settles O55, field by field; `STATUS` is read on the bus. -/
theorem resetValues : Obligations.ResetValues := by
  refine ⟨rfl, rfl, fun p => ?_⟩
  rw [peek_addr, regValue, unit_reset]
  exact ⟨rfl, rfl, rfl, rfl, rfl, rfl⟩

/-! ### Every move keeps the invariant -/

theorem inv_of_lineKept {s t : State} (h : Inv s) (k : LineKept s t) : Inv t := by
  obtain ⟨hstage, hport, hcfg, hsetup, hunit⟩ := k
  obtain ⟨hports, hactive⟩ := (inv_iff s).mp h
  refine (inv_iff t).mpr ⟨fun p => ?_, ?_⟩
  · rw [configuring_eq, hport, hstage, ← configuring_eq]
    exact (hports p).of_kept (hunit p)
  · rw [hsetup, hcfg, hport, hstage]
    exact hactive.of_kept (hunit s.port)

theorem inv_blockReset (s : State) : Inv s.blockReset :=
  inv_of_reset rfl fun p => ⟨s.blockReset_ready p, s.blockReset_ctrlb p, s.blockReset_dre p, s.blockReset_rxc p⟩

/-- A host's move from `Idle` to the first stage of a command keeps the invariant if it touches no port. -/
theorem inv_of_acceptance {s t : State} (h : Inv s) (hs : s.stage = .idle) (hunit : ∀ p, t.unit p = s.unit p)
    (ht : configuringAt t.stage = false) (hstage : StageInv t.setup.oorPolicy t.cfg (s.unit t.port) t.stage) :
    Inv t := by
  have hidle : configuringAt s.stage = false := by rw [hs]; rfl
  refine (inv_iff t).mpr ⟨fun p => ?_, by rwa [hunit]⟩
  rw [hunit, configuring_outside ht, ← configuring_outside hidle p]
  exact ((inv_iff s).mp h).1 p

theorem hostMove_keeps_inv {s t : State} (h : Inv s) (m : HostMove s t) : Inv t := by
  cases m with
  | waits => exact h
  | init hs => exact inv_of_acceptance h hs (fun _ => rfl) rfl trivial
  | transmit hs _ _ hr => exact inv_of_acceptance h hs (fun _ => rfl) rfl hr
  | receive hs _ _ hr => exact inv_of_acceptance h hs (fun _ => rfl) rfl hr

/-- What `Inv` says of the unit of the command in progress, and a sequencer step keeps: its enables and flags, and what
its stage says. -/
def ActiveInv (w : OorPolicy) (c : PortConfig) (u : PortState) (x : Stage) : Prop :=
  UnitInv u (configuringAt x) ∧ StageInv w c u x

theorem seqMove_keeps_activeInv {s t : State} (m : SeqMove s t)
    (h : ActiveInv s.setup.oorPolicy s.cfg (s.unit s.port) s.stage) :
    ActiveInv s.setup.oorPolicy s.cfg (t.unit s.port) t.stage := by
  obtain ⟨⟨hen, hfmt, hsend, hread⟩, hstage⟩ := h
  cases m with
  | idle hs => exact ⟨⟨hen, hfmt, hsend, hread⟩, hstage⟩
  | init1 hs =>
    rw [State.goto_unit, State.unit_updUnit_same]
    exact ⟨⟨by simp [configuringAt], hfmt, hsend, hread⟩, trivial⟩
  | init2 hs =>
    rw [hs] at hen
    rw [State.goto_unit, State.unit_updUnit_same, unit_divisorByte]
    exact ⟨⟨hen, hfmt, hsend, hread⟩, halfWritten_divisorByte hiByte s⟩
  | init3 hs =>
    rw [hs] at hen hstage
    rw [State.goto_unit, State.unit_updUnit_same, unit_divisorByte]
    exact ⟨⟨hen, hfmt, hsend, hread⟩, hstage, halfWritten_divisorByte loByte s⟩
  | init4 hs =>
    rw [hs] at hen hstage
    rw [State.goto_unit, State.unit_updUnit_same]
    exact ⟨⟨hen, fun _ => formatByte_fmt s.cfg, hsend, hread⟩, hstage.1, hstage.2, rfl⟩
  | init5 hs =>
    rw [hs] at hstage
    obtain ⟨-, -, hctrlc⟩ := hstage
    rw [State.respond_unit, State.unit_setReady_same, State.unit_updUnit_same]
    exact ⟨⟨enb_eq, fun _ => hctrlc ▸ formatByte_fmt s.cfg, fun _ => rfl, fun _ => rfl⟩, trivial⟩
  | txPoll hs =>
    rw [hs] at hen hstage
    cases hdre : (s.unit s.port).dre with
    | true => exact ⟨⟨hen, hfmt, hsend, hread⟩, hstage, hdre⟩
    | false => exact ⟨⟨hen, hfmt, hsend, hread⟩, hstage⟩
  | txWrite hs =>
    rw [hs] at hen hstage
    rw [State.respond_unit, State.unit_updUnit_same]
    exact ⟨⟨hen, hfmt, fun _ => hstage.1, hread⟩, trivial⟩
  | rxPoll hs =>
    rw [hs] at hen hstage
    cases hrxc : (s.unit s.port).rxc with
    | true => exact ⟨⟨hen, hfmt, hsend, hread⟩, hstage, hrxc⟩
    | false => exact ⟨⟨hen, hfmt, hsend, hread⟩, hstage⟩
  | rxRead hs =>
    rw [hs] at hen hstage
    rw [State.respond_unit, State.setRsp_unit, State.unit_updUnit_same]
    exact ⟨⟨hen, hfmt, hsend, fun _ => hstage.1⟩, trivial⟩

theorem seqMove_keeps_inv {s t : State} (h : Inv s) (m : SeqMove s t) : Inv t := by
  obtain ⟨hport, hcfg, hsetup⟩ := latches_of_seqMove m
  obtain ⟨hports, hstage⟩ := (inv_iff s).mp h
  obtain ⟨hunit, hstage⟩ := seqMove_keeps_activeInv m ⟨configuring_port s ▸ hports s.port, hstage⟩
  refine (inv_iff t).mpr ⟨fun p => ?_, by rwa [hsetup, hcfg, hport]⟩
  by_cases hp : p = s.port
  · rwa [hp, ← hport, configuring_port, hport]
  · rw [unit_other_of_seqMove m hp, configuring_ne (hport ▸ hp), ← configuring_ne hp]
    exact hports p

theorem takeTurn_keeps_inv {m : Turn} {s t : State} (h : Inv s) (ht : takeTurn m s = .next t) : Inv t := by
  cases m with
  | host => exact hostMove_keeps_inv h (hostTurn_next ht)
  | seq => exact seqMove_keeps_inv h (seqTurn_next ht)
  | lineTx p => cases ht; exact inv_of_lineKept h (lineKept_lineTx p s)
  | lineRx p => cases ht; exact inv_of_lineKept h (lineKept_lineRx p s)
  | arrive p c => cases ht; exact inv_of_lineKept h (lineKept_arrive p c s)
  | reset => cases ht; exact inv_blockReset s

/-- Settles O54, agent by agent. -/
theorem stepKeepsInvariant : Obligations.StepKeepsInvariant := fun s _ h ht =>
  takeTurn_keeps_inv (inv_of_lineKept h (lineKept_useTurn s)) (step_next ht).2

/-! ### The sequencer's and the host's turn -/

theorem decode_of_decode? {w : CmdWord} {i : Instr} (h : decode? w = some i) : decode w = .ok i := by
  unfold decode? at h
  cases hd : decode w with
  | error e => simp [hd] at h
  | ok j => simpa [hd] using h

theorem seqTurn_running {s : State} {i : Instr} (h : s.running = some i) : seqTurn s = exec i s := by
  simp [seqTurn, h]

/-- Settles O37, from the turns of the two agents with the turn used up. -/
theorem stepContinuesOrWaits : Obligations.StepContinuesOrWaits := by
  intro s ms hf
  have hstep {m : Turn} (hm : s.turns = m :: ms) : step s = takeTurn m (s.setTurns ms) := by
    rw [step_eq_takeTurn hf, nextTurn_cons hm, useTurn_cons hm]
  refine ⟨fun i hm hr => ?_, fun hm hs => ?_, fun hm hw => ?_⟩
  · exact (hstep hm).trans (seqTurn_running hr)
  · exact (hstep hm).trans (seqTurn_idle hs)
  · exact (hstep hm).trans (hostTurn_waits hw)

/-- Settles O38: `withFetchWord` makes the host hand the word over. -/
theorem fetchedWordRuns : Obligations.FetchedWordRuns := by
  intro s w i h
  have hturn : (s.withFetchWord 64 w).turns = .host :: s.turns := rfl
  have hcmds : ((s.withFetchWord 64 w).setTurns s.turns).cmds = BitVec.ofNat 64 (w % 2 ^ 64) :: s.cmds := rfl
  rw [step_eq_takeTurn rfl, nextTurn_cons hturn, useTurn_cons hturn]
  exact hostTurn_hands rfl hcmds (decode_of_decode? h)

end Sys2Proof.Proofs

/-! PROOFS. The register bus (20_memory.md): the twelve addresses (R31, R35), what each access does (R42), that no step
lacks a move (R35, R132), that the ports do not interact (R43), and the parameters and commands of the host (R37). -/

namespace Sys2Proof.Proofs

open Sys2Proof.Machine Sys2Proof.Safety

/-! ### The addresses -/

/-- `locate` reads port and register back from an address, so no two registers share one. -/
theorem addr_injective {m : RegMap} {p q : Port} {r r' : Reg} (h : addr m p r = addr m q r') : p = q ∧ r = r' := by
  have hloc := congrArg (locate m) h
  rwa [locate_addr, locate_addr, Option.some_inj, Prod.mk.injEq] at hloc

/-- Two register sets that share no address lie one wholly below the other. -/
theorem bases_apart {a b : Nat} (h : ∀ i j, i < 6 → j < 6 → a + i ≠ b + j) : a + 6 ≤ b ∨ b + 6 ≤ a := by
  rcases Nat.le_total a b with hab | hba
  · have := h (b - a) 0
    omega
  · have := h 0 (a - b)
    omega

/-- Bases that lie apart are those of a `RegMap`, whichever port is the lower one. -/
theorem exists_regMap {a b : Nat} (h : a + 6 ≤ b ∨ b + 6 ≤ a) : ∃ m, base m .A = a ∧ base m .B = b := by
  rcases h with h | h
  · exact ⟨{ low := a, gap := b - (a + 6), bFirst := false }, rfl, Nat.add_sub_cancel' h⟩
  · exact ⟨{ low := b, gap := a - (b + 6), bFirst := true }, Nat.add_sub_cancel' h, rfl⟩

theorem locate_eq_none {m : RegMap} {a : Nat} (h : ∀ p r, a ≠ addr m p r) : locate m a = none :=
  Option.eq_none_iff_forall_not_mem.mpr fun x hx => h x.1 x.2 (locate_some hx)

/-- Settles O16, from `locate` as the inverse of `addr`. -/
theorem twelveDistinctAddresses : Obligations.TwelveDistinctAddresses := by
  refine ⟨fun m p r q r' => addr_injective, fun a b h => exists_regMap (bases_apart h), fun s a h => ⟨?_, fun v => ?_⟩⟩
  · rw [memRead, locate_eq_none h, Option.map_none]
  · rw [memWrite, locate_eq_none h, Option.map_none]

/-! ### The accesses -/

/-- Settles O17: each access reaches its register (`memRead_addr`, `memWrite_addr`), whose row of R42 is then read off
`regValue`, `regReadEffect` and `regWrite`. -/
theorem busAccessTable : Obligations.BusAccessTable := by
  refine ⟨by decide, fun s p v => ?_⟩
  have hread := memRead_addr s p
  have hwrite (r : Reg) := memWrite_addr s p r v
  exact ⟨hread .status, hwrite .status, hread .data, hwrite .data, hread .ctrlb, hwrite .ctrlb, hread .ctrlc,
    hwrite .ctrlc, hread .baudh, hwrite .baudh, hread .baudl, hwrite .baudl⟩

/-! ### Every agent has a move -/

theorem requireReady_ne_refused {p : Port} {s : State} {f : State → State} {r : Refusal} :
    requireReady p s (fun u => .next (f u)) ≠ .refused r := by
  cases h : (s.unit p).ready with
  | true => rw [requireReady_ready h]; nofun
  | false => rw [requireReady_uninitialized h]; nofun

/-- An `Idle` sequencer accepts a command or faults; it never refuses one (60_exceptions.md R132). -/
theorem exec_idle_ne_refused {s : State} (h : s.stage = .idle) (i : Instr) (r : Refusal) : exec i s ≠ .refused r := by
  cases i with
  | init p c => rw [exec_init_idle h]; nofun
  | transmit p b => rw [exec_transmit_idle h]; exact requireReady_ne_refused
  | receive p => rw [exec_receive_idle h]; exact requireReady_ne_refused

theorem hostTurn_ne_refused (s : State) (r : Refusal) : hostTurn s ≠ .refused r := by
  by_cases hw : s.stage ≠ .idle ∨ s.cmds = []
  · rw [hostTurn_waits hw]; nofun
  · obtain ⟨hs, hc⟩ : s.stage = .idle ∧ s.cmds ≠ [] := by simpa using hw
    obtain ⟨w, rest, hcons⟩ := List.exists_cons_of_ne_nil hc
    cases hd : decode w with
    | error e => rw [hostTurn_reserved hs hcons hd]; nofun
    | ok i => rw [hostTurn_hands hs hcons hd]; exact exec_idle_ne_refused (by exact hs) i r

theorem seqTurn_ne_refused (s : State) (r : Refusal) : seqTurn s ≠ .refused r := by
  obtain ⟨t, ht, -⟩ := seqTurn_spec s
  rw [ht]
  nofun

theorem takeTurn_ne_refused (m : Turn) (s : State) (r : Refusal) : takeTurn m s ≠ .refused r := by
  cases m with
  | host => exact hostTurn_ne_refused s r
  | seq => exact seqTurn_ne_refused s r
  | _ => nofun

/-- Settles O44, agent by agent. -/
theorem stepNeverRefuses : Obligations.StepNeverRefuses := by
  intro s r hf
  rw [step_eq_takeTurn hf]
  exact takeTurn_ne_refused s.nextTurn s.useTurn r

/-! ### The line-side agents of one port, seen from the other -/

theorem unit_lineRx_other (p : Port) (s : State) : (lineRx p.other s).unit p = s.unit p := by
  obtain ⟨l, v, r, k, h⟩ := lineRx_frame p.other s
  rw [h, State.setDrawn_unit, State.unit_other_updUnit]

theorem unit_arrive_other (p : Port) (c : Byte) (s : State) : (arrive p.other c s).unit p = s.unit p := by
  obtain ⟨l, h⟩ := arrive_frame p.other c s
  rw [h, State.unit_other_updUnit]

/-- A departure of one port appends to the arrivals of the other, nothing on a free line (43_transmit_receive.md
R113). -/
theorem unit_lineTx_other (p : Port) (s : State) : ∃ cs,
    (lineTx p.other s).unit p = { s.unit p with lineIn := (s.unit p).lineIn ++ cs } ∧
      (s.setup.wiring = .free → cs = []) := by
  cases h : lineTxEnabled p.other s with
  | false => exact ⟨[], by rw [lineTx_disabled h, List.append_nil], fun _ => rfl⟩
  | true =>
    obtain ⟨c, cs, k, ht, hfree, -⟩ := lineTx_enabled h
    refine ⟨cs, ?_, hfree⟩
    rw [ht, Port.other_other, State.setDrawn_unit, State.unit_appendIn_same, State.unit_other_updUnit]

/-- Settles O49, from the frame of each agent's move. -/
theorem portsDoNotInteract : Obligations.PortsDoNotInteract := by
  intro s t p h
  have ht := (step_next h).2
  have hlineTx (hm : s.nextTurn = .lineTx p.other) : ∃ cs,
      t.unit p = { s.unit p with lineIn := (s.unit p).lineIn ++ cs } ∧ (s.setup.wiring = .free → cs = []) := by
    rw [hm] at ht
    cases ht
    simpa using unit_lineTx_other p s.useTurn
  refine ⟨fun hm => ?_, fun hm hp => ?_, fun hm => ?_, fun ⟨c, hm⟩ => ?_, fun hm hfree => ?_, fun hm => ?_⟩
  · rw [hm] at ht
    rw [unit_of_hostMove (hostTurn_next ht), State.unit_useTurn]
  · rw [hm] at ht
    rw [unit_other_of_seqMove (seqTurn_next ht) (by rwa [State.port_useTurn]), State.unit_useTurn]
  · rw [hm] at ht
    cases ht
    rw [unit_lineRx_other, State.unit_useTurn]
  · rw [hm] at ht
    cases ht
    rw [unit_arrive_other, State.unit_useTurn]
  · obtain ⟨cs, hcs, hnil⟩ := hlineTx hm
    rw [hcs, hnil hfree, List.append_nil]
  · obtain ⟨cs, hcs, -⟩ := hlineTx hm
    exact ⟨cs, hcs⟩

/-! ### The parameters and the host's commands -/

theorem setup_of_hostMove {s t : State} (m : HostMove s t) : t.setup = s.setup := by cases m <;> rfl

/-- No agent's move, nor a reset, changes the parameters (00_scope.md R5). -/
theorem setup_of_takeTurn {m : Turn} {s t : State} (h : takeTurn m s = .next t) : t.setup = s.setup := by
  cases m with
  | host => exact setup_of_hostMove (hostTurn_next h)
  | seq =>
    obtain ⟨-, -, hsetup⟩ := latches_of_seqMove (seqTurn_next h)
    exact hsetup
  | lineTx p => cases h; exact (lineKept_lineTx p s).setup
  | lineRx p => cases h; exact (lineKept_lineRx p s).setup
  | arrive p c => cases h; exact (lineKept_arrive p c s).setup
  | reset => cases h; rfl

/-- The host keeps its commands while it waits, and loses the head when that command is accepted. -/
theorem cmds_of_hostMove {s t : State} (m : HostMove s t) :
    t.cmds = s.cmds ∨ (s.stage = .idle ∧ t.stage ≠ .idle ∧ ∃ w, s.cmds = w :: t.cmds) := by
  cases m with
  | waits => exact .inl rfl
  | init hs hc => exact .inr ⟨hs, nofun, _, hc⟩
  | transmit hs hc => exact .inr ⟨hs, nofun, _, hc⟩
  | receive hs hc => exact .inr ⟨hs, nofun, _, hc⟩

theorem cmds_of_seqMove {s t : State} (m : SeqMove s t) : t.cmds = s.cmds := by
  have hdiv (half : DivWord → Byte) : (divisorByte half s).2.cmds = s.cmds := by
    rcases divisorByte_state half s with h | h
    · rw [h]
    · rw [h, State.setDrawn_cmds]
  cases m with
  | init2 => exact hdiv hiByte
  | init3 => exact hdiv loByte
  | _ => rfl

theorem cmds_lineTx (p : Port) (s : State) : (lineTx p s).cmds = s.cmds := by
  cases h : lineTxEnabled p s with
  | false => rw [lineTx_disabled h]
  | true =>
    obtain ⟨c, cs, k, ht, -⟩ := lineTx_enabled h
    rw [ht]
    rfl

theorem cmds_lineRx (p : Port) (s : State) : (lineRx p s).cmds = s.cmds := by
  obtain ⟨l, v, r, k, h⟩ := lineRx_frame p s
  rw [h]
  rfl

theorem cmds_arrive (p : Port) (c : Byte) (s : State) : (arrive p c s).cmds = s.cmds := by
  obtain ⟨l, h⟩ := arrive_frame p c s
  rw [h]
  rfl

/-- Of all the moves only the host's can use a command up (00_scope.md R8). -/
theorem cmds_of_takeTurn {m : Turn} {s t : State} (h : takeTurn m s = .next t) :
    t.cmds = s.cmds ∨ (m = .host ∧ s.stage = .idle ∧ t.stage ≠ .idle ∧ ∃ w, s.cmds = w :: t.cmds) := by
  cases m with
  | host => exact (cmds_of_hostMove (hostTurn_next h)).imp_right fun hc => ⟨rfl, hc⟩
  | seq => exact .inl (cmds_of_seqMove (seqTurn_next h))
  | lineTx p => cases h; exact .inl (cmds_lineTx p s)
  | lineRx p => cases h; exact .inl (cmds_lineRx p s)
  | arrive p c => cases h; exact .inl (cmds_arrive p c s)
  | reset => cases h; exact .inl rfl

/-- Settles O51, from what each agent's move does to `setup` and to `cmds`. -/
theorem parametersFixedCommandsInOrder : Obligations.ParametersFixedCommandsInOrder := by
  intro s t h
  obtain ⟨-, ht⟩ := step_next h
  have hcmds := cmds_of_takeTurn ht
  simp only [State.cmds_useTurn, State.stage_useTurn] at hcmds
  exact ⟨(setup_of_takeTurn ht).trans s.setup_useTurn, hcmds⟩

end Sys2Proof.Proofs

/-! PROOFS. The command word (30_encoding.md): what the decoder answers, case by case (R64), the word of a command as
the fields it is made of (R51 to R54), and the one response of a completed command (R60). -/

namespace Sys2Proof.Proofs

open Sys2Proof.Machine Sys2Proof.Safety Sys2Proof.Laws

/-! ### Concatenations of bit vectors -/

theorem append_eq_append_iff {m n : Nat} {x x' : BitVec m} {y y' : BitVec n} :
    x ++ y = x' ++ y' ↔ x = x' ∧ y = y' := by
  refine ⟨fun h => ⟨?_, ?_⟩, fun ⟨hx, hy⟩ => by rw [hx, hy]⟩
  · simpa only [BitVec.extractLsb'_append_eq_left] using congrArg (BitVec.extractLsb' n m) h
  · simpa only [BitVec.extractLsb'_append_eq_right] using congrArg (BitVec.extractLsb' 0 n) h

theorem toNat_append_eq_add {m n : Nat} (x : BitVec m) (y : BitVec n) :
    (x ++ y).toNat = x.toNat * 2 ^ n + y.toNat := by
  rw [BitVec.toNat_append, ← Nat.shiftLeft_add_eq_or_of_lt y.isLt, Nat.shiftLeft_eq]

theorem extractLsb'_eq_iff {n k : Nat} (a : Nat) (w : BitVec n) (v : BitVec k) :
    w.extractLsb' a k = v ↔ w.toNat / 2 ^ a % 2 ^ k = v.toNat := by
  rw [← BitVec.toNat_inj, BitVec.extractLsb'_toNat, Nat.shiftRight_eq_div_pow]

/-! ### The `PORT` bit (30_encoding.md R55) -/

theorem portOfBit_eq_iff {b : BitVec 1} {p : Port} : portOfBit b = p ↔ b = bitOfPort p := by
  revert b
  cases p <;> decide

theorem portBit_eq (w : CmdWord) : CW.portBit w = bitOfPort (portOfBit (CW.portBit w)) := portOfBit_eq_iff.mp rfl

theorem toNat_bitOfPort (p : Port) : (bitOfPort p).toNat = if p = .B then 1 else 0 := by cases p <;> rfl

/-! ### What the decoder answers -/

/-- Every answer of the decoder with what the fields of the word then are, in the order of R64. -/
inductive Decodes (w : CmdWord) : Except Reserved Instr → Prop where
  | z0NotZero (hz : CW.z0 w ≠ 0#5) : Decodes w (.error .z0NotZero)
  | init {p : Port} {c : PortConfig} (hz : CW.z0 w = 0#5) (ho : CW.op w = 0#2) (hp : CW.portBit w = bitOfPort p)
      (hbaud : CW.baud w = c.baud) (hpar : CW.parity w = c.parity) (hstop : CW.stopBits w = c.stopBits)
      (hdata : CW.dataBits w = c.dataBits) : Decodes w (.ok (.init p c))
  | transmit {p : Port} {b : Byte} (hz : CW.z0 w = 0#5) (ho : CW.op w = 1#2) (hp : CW.portBit w = bitOfPort p)
      (hbyte : CW.byte w = b) (h1 : CW.z1 w = 0#48) : Decodes w (.ok (.transmit p b))
  | z1NotZero (hz : CW.z0 w = 0#5) (ho : CW.op w = 1#2) (h1 : CW.z1 w ≠ 0#48) : Decodes w (.error .z1NotZero)
  | receive {p : Port} (hz : CW.z0 w = 0#5) (ho : CW.op w = 2#2) (hp : CW.portBit w = bitOfPort p)
      (h2 : CW.z2 w = 0#56) : Decodes w (.ok (.receive p))
  | z2NotZero (hz : CW.z0 w = 0#5) (ho : CW.op w = 2#2) (h2 : CW.z2 w ≠ 0#56) : Decodes w (.error .z2NotZero)
  | op3 (hz : CW.z0 w = 0#5) (ho : CW.op w = 3#2) : Decodes w (.error .op3)

theorem op_eq_three {o : BitVec 2} (h0 : o ≠ 0#2) (h1 : o ≠ 1#2) (h2 : o ≠ 2#2) : o = 3#2 := by
  revert o
  decide

theorem decodes_decode (w : CmdWord) : Decodes w (decode w) := by
  unfold decode
  split_ifs with hz h0 h1 hz1 h2 hz2
  · exact .z0NotZero hz
  all_goals replace hz := not_not.mp hz
  · exact .init hz h0 (portBit_eq w) rfl rfl rfl rfl
  · exact .transmit hz h1 (portBit_eq w) rfl hz1
  · exact .z1NotZero hz h1 hz1
  · exact .receive hz h2 (portBit_eq w) hz2
  · exact .z2NotZero hz h2 hz2
  · exact .op3 hz (op_eq_three h0 h1 h2)

/-- The cases of `Decodes` exclude each other, so each says exactly when the decoder gives its answer. -/
theorem decode_eq_iff {w : CmdWord} {r : Except Reserved Instr} : decode w = r ↔ Decodes w r := by
  refine ⟨fun h => h ▸ decodes_decode w, fun h => ?_⟩
  cases h with
  | z0NotZero hz => simp [decode, hz]
  | init hz ho hp hbaud hpar hstop hdata => simp [decode, hz, ho, portOfBit_eq_iff.mpr hp, hbaud, hpar, hstop, hdata]
  | transmit hz ho hp hbyte h1 => simp [decode, hz, ho, portOfBit_eq_iff.mpr hp, hbyte, h1]
  | z1NotZero hz ho h1 => simp [decode, hz, ho, h1]
  | receive hz ho hp h2 => simp [decode, hz, ho, portOfBit_eq_iff.mpr hp, h2]
  | z2NotZero hz ho h2 => simp [decode, hz, ho, h2]
  | op3 hz ho => simp [decode, hz, ho]

/-! ### Decoding the word of a command -/

/-- The low byte of every command's word (30_encoding.md R51). -/
theorem header_encode (i : Instr) : Header.Statement i := by
  cases i with
  | init p c => exact Header.init p c
  | transmit p b => exact Header.transmit p b
  | receive p => exact Header.receive p

/-! An operand field is read back by dropping the fields above it (`extract_low`): it is the upper part of the rest. -/

theorem baud_encode_init (p : Port) (c : PortConfig) : CW.baud (encode (.init p c)) = c.baud :=
  BitVec.extractLsb'_append_eq_left

theorem parity_encode_init (p : Port) (c : PortConfig) : CW.parity (encode (.init p c)) = c.parity := by
  rw [CW.parity, encode, Header.extract_low _ _ _ _ (by decide)]
  exact BitVec.extractLsb'_append_eq_left

theorem stopBits_encode_init (p : Port) (c : PortConfig) : CW.stopBits (encode (.init p c)) = c.stopBits := by
  rw [CW.stopBits, encode, Header.extract_low _ _ _ _ (by decide), Header.extract_low _ _ _ _ (by decide)]
  exact BitVec.extractLsb'_append_eq_left

theorem dataBits_encode_init (p : Port) (c : PortConfig) : CW.dataBits (encode (.init p c)) = c.dataBits := by
  rw [CW.dataBits, encode, Header.extract_low _ _ _ _ (by decide), Header.extract_low _ _ _ _ (by decide),
    Header.extract_low _ _ _ _ (by decide)]
  exact BitVec.extractLsb'_append_eq_left

theorem byte_encode_transmit (p : Port) (b : Byte) : CW.byte (encode (.transmit p b)) = b := by
  rw [CW.byte, encode, Header.extract_low _ _ _ _ (by decide)]
  exact BitVec.extractLsb'_append_eq_left

theorem z1_encode_transmit (p : Port) (b : Byte) : CW.z1 (encode (.transmit p b)) = 0#48 :=
  BitVec.extractLsb'_append_eq_left

theorem z2_encode_receive (p : Port) : CW.z2 (encode (.receive p)) = 0#56 := BitVec.extractLsb'_append_eq_left

/-- Settles O1: the fields of the encoded word are those `Decodes` asks for. -/
theorem decodeInvertsEncode : Obligations.DecodeInvertsEncode := by
  intro i
  obtain ⟨ho, hp, hz⟩ := header_encode i
  rw [decode_eq_iff]
  cases i with
  | init p c =>
    exact .init hz ho hp (baud_encode_init p c) (parity_encode_init p c) (stopBits_encode_init p c)
      (dataBits_encode_init p c)
  | transmit p b => exact .transmit hz ho hp (byte_encode_transmit p b) (z1_encode_transmit p b)
  | receive p => exact .receive hz ho hp (z2_encode_receive p)

/-! ### A word put together from its fields -/

/-- Two fields of a word that lie side by side are one field of it. -/
theorem extract_append_extract {n : Nat} (w : BitVec n) (a k l : Nat) :
    w.extractLsb' (a + k) l ++ w.extractLsb' a k = w.extractLsb' a (l + k) :=
  BitVec.extractLsb'_append_extractLsb'_eq_extractLsb' rfl

theorem z1_append_byte (w : CmdWord) : CW.z1 w ++ CW.byte w = CW.z2 w := extract_append_extract w 8 8 48

theorem header_append (w : CmdWord) : CW.z0 w ++ (CW.portBit w ++ CW.op w) = w.extractLsb' 0 8 := by
  have hlow : CW.portBit w ++ CW.op w = w.extractLsb' 0 3 := extract_append_extract w 0 2 1
  rw [hlow]
  exact extract_append_extract w 0 3 5

theorem low16_append (w : CmdWord) :
    CW.byte w ++ (CW.z0 w ++ (CW.portBit w ++ CW.op w)) = w.extractLsb' 0 16 := by
  rw [header_append]
  exact extract_append_extract w 0 8 8

/-- The fields of R54 are the whole word. -/
theorem receiveFields_append (w : CmdWord) : CW.z2 w ++ (CW.z0 w ++ (CW.portBit w ++ CW.op w)) = w := by
  rw [header_append]
  exact (extract_append_extract w 0 8 56).trans BitVec.extractLsb'_eq_self

/-- The fields of R53 are the whole word. -/
theorem transmitFields_append (w : CmdWord) :
    CW.z1 w ++ (CW.byte w ++ (CW.z0 w ++ (CW.portBit w ++ CW.op w))) = w := by
  rw [low16_append]
  exact (extract_append_extract w 0 16 48).trans BitVec.extractLsb'_eq_self

/-- The fields of R52 are the whole word. -/
theorem initFields_append (w : CmdWord) :
    CW.baud w ++ (CW.parity w ++ (CW.stopBits w ++ (CW.dataBits w ++
      (CW.z0 w ++ (CW.portBit w ++ CW.op w))))) = w := by
  have hstop : CW.stopBits w ++ w.extractLsb' 0 16 = w.extractLsb' 0 24 := extract_append_extract w 0 16 8
  have hpar : CW.parity w ++ w.extractLsb' 0 24 = w.extractLsb' 0 32 := extract_append_extract w 0 24 8
  have hdata := low16_append w
  rw [CW.byte, ← CW.dataBits] at hdata
  rw [hdata, hstop, hpar]
  exact (extract_append_extract w 0 32 32).trans BitVec.extractLsb'_eq_self

/-- Settles O2: the fields `Decodes` names are all of the word. -/
theorem encodeInvertsDecode : Obligations.EncodeInvertsDecode := by
  intro w i h
  cases decode_eq_iff.mp h with
  | init hz ho hp hbaud hpar hstop hdata =>
    rw [encode, ← hbaud, ← hpar, ← hstop, ← hdata, ← hz, ← hp, ← ho, initFields_append]
  | transmit hz ho hp hbyte h1 => rw [encode, ← h1, ← hbyte, ← hz, ← hp, ← ho, transmitFields_append]
  | receive hz ho hp h2 => rw [encode, ← h2, ← hz, ← hp, ← ho, receiveFields_append]

/-- Settles O3: a concatenation is a sum of shifted parts. -/
theorem encodedWordIsFieldSum : Obligations.EncodedWordIsFieldSum := by
  refine ⟨fun p c => ?_, fun p b => ?_, fun p => ?_⟩ <;>
    simp only [encode, toNat_append_eq_add, toNat_bitOfPort, BitVec.toNat_ofNat] <;> omega

/-! ### The opcode table -/

/-- A mask that takes in all of the low byte but `PORT`: the word agrees with a match there, and is 0 under the rest of
the mask. -/
theorem and_mask_eq_iff (w : CmdWord) (m : BitVec 56) (k : BitVec 2) :
    w &&& (m ++ (31#5 ++ (0#1 ++ 3#2))) = 0#56 ++ (0#5 ++ (0#1 ++ k)) ↔
      CW.z2 w &&& m = 0#56 ∧ CW.z0 w = 0#5 ∧ CW.op w = k := by
  have hz : CW.z0 w &&& 31#5 = CW.z0 w := BitVec.and_allOnes
  have ho : CW.op w &&& 3#2 = CW.op w := BitVec.and_allOnes
  have hand : w &&& (m ++ (31#5 ++ (0#1 ++ 3#2))) = (CW.z2 w &&& m) ++ (CW.z0 w ++ (0#1 ++ CW.op w)) := by
    conv_lhs => rw [← receiveFields_append w]
    rw [BitVec.and_append, BitVec.and_append, BitVec.and_append, hz, ho, BitVec.and_zero]
  rw [hand]
  refine append_eq_append_iff.trans (and_congr_right fun _ => append_eq_append_iff.trans (and_congr_right fun _ => ?_))
  exact append_eq_append_iff.trans (and_iff_right rfl)

theorem exists_decode_init_iff (w : CmdWord) :
    (∃ p c, decode w = .ok (.init p c)) ↔ CW.z0 w = 0#5 ∧ CW.op w = 0#2 := by
  simp only [decode_eq_iff]
  constructor
  · rintro ⟨p, c, h⟩
    cases h with | init hz ho => exact ⟨hz, ho⟩
  · rintro ⟨hz, ho⟩
    exact ⟨_, ⟨CW.baud w, CW.dataBits w, CW.stopBits w, CW.parity w⟩, .init hz ho (portBit_eq w) rfl rfl rfl rfl⟩

theorem exists_decode_transmit_iff (w : CmdWord) :
    (∃ p b, decode w = .ok (.transmit p b)) ↔ CW.z1 w = 0#48 ∧ CW.z0 w = 0#5 ∧ CW.op w = 1#2 := by
  simp only [decode_eq_iff]
  constructor
  · rintro ⟨p, b, h⟩
    cases h with | transmit hz ho _ _ h1 => exact ⟨h1, hz, ho⟩
  · rintro ⟨h1, hz, ho⟩
    exact ⟨_, _, .transmit hz ho (portBit_eq w) rfl h1⟩

theorem exists_decode_receive_iff (w : CmdWord) :
    (∃ p, decode w = .ok (.receive p)) ↔ CW.z2 w = 0#56 ∧ CW.z0 w = 0#5 ∧ CW.op w = 2#2 := by
  simp only [decode_eq_iff]
  constructor
  · rintro ⟨p, h⟩
    cases h with | receive hz ho _ h2 => exact ⟨h2, hz, ho⟩
  · rintro ⟨h2, hz, ho⟩
    exact ⟨_, .receive hz ho (portBit_eq w) h2⟩

theorem z2_and_transmitMask_iff (w : CmdWord) : CW.z2 w &&& 0xFFFFFFFFFFFF00#56 = 0#56 ↔ CW.z1 w = 0#48 := by
  have hand : CW.z2 w &&& 0xFFFFFFFFFFFF00#56 = CW.z1 w ++ 0#8 := by
    rw [← z1_append_byte, show 0xFFFFFFFFFFFF00#56 = BitVec.allOnes 48 ++ 0#8 from rfl, BitVec.and_append,
      BitVec.and_allOnes, BitVec.and_zero]
  rw [hand]
  exact (append_eq_append_iff (x' := 0#48) (y' := 0#8)).trans (and_iff_left rfl)

/-- Settles O4: each row's mask and match, cut into the fields they cover. -/
theorem opcodeTableMatchAndMask : Obligations.OpcodeTableMatchAndMask := by
  intro w
  refine ⟨?_, ?_, ?_⟩
  · rw [exists_decode_init_iff]
    exact ((and_mask_eq_iff w 0#56 0#2).trans (and_iff_right BitVec.and_zero)).symm
  · rw [exists_decode_transmit_iff, ← z2_and_transmitMask_iff]
    exact (and_mask_eq_iff w 0xFFFFFFFFFFFF00#56 1#2).symm
  · rw [exists_decode_receive_iff, ← BitVec.and_allOnes (x := CW.z2 w)]
    exact (and_mask_eq_iff w (BitVec.allOnes 56) 2#2).symm

/-! ### The reserved words (30_encoding.md R57) -/

theorem z0_eq_zero_iff (w : CmdWord) : CW.z0 w = 0#5 ↔ w.toNat / 2 ^ 3 % 2 ^ 5 = 0 := extractLsb'_eq_iff 3 w 0#5

theorem op_eq_iff (w : CmdWord) (k : BitVec 2) : CW.op w = k ↔ w.toNat % 4 = k.toNat := by
  rw [CW.op, extractLsb'_eq_iff, Nat.pow_zero, Nat.div_one]
  rfl

theorem z1_eq_zero_iff (w : CmdWord) : CW.z1 w = 0#48 ↔ w.toNat / 2 ^ 16 = 0 := by
  rw [CW.z1, extractLsb'_eq_iff, Nat.mod_eq_of_lt (by omega)]
  rfl

theorem z2_eq_zero_iff (w : CmdWord) : CW.z2 w = 0#56 ↔ w.toNat / 2 ^ 8 = 0 := by
  rw [CW.z2, extractLsb'_eq_iff, Nat.mod_eq_of_lt (by omega)]
  rfl

/-- Settles O5: the four reserved answers of `Decodes`, their fields read as numbers. -/
theorem reservedWordsByReason : Obligations.ReservedWordsByReason := by
  intro w
  have h1 := op_eq_iff w 1#2
  have h2 := op_eq_iff w 2#2
  have h3 := op_eq_iff w 3#2
  rw [ne_eq, ne_eq, ne_eq, ← z0_eq_zero_iff, ← z1_eq_zero_iff, ← z2_eq_zero_iff]
  simp only [decode_eq_iff]
  refine ⟨⟨fun h => ?_, .z0NotZero⟩, ⟨fun h => ?_, fun ⟨hz, ho⟩ => .op3 hz (h3.mpr ho)⟩,
    ⟨fun h => ?_, fun ⟨hz, ho, hz1⟩ => .z1NotZero hz (h1.mpr ho) hz1⟩,
    ⟨fun h => ?_, fun ⟨hz, ho, hz2⟩ => .z2NotZero hz (h2.mpr ho) hz2⟩⟩
  · cases h with | z0NotZero hz => exact hz
  · cases h with | op3 hz ho => exact ⟨hz, h3.mp ho⟩
  · cases h with | z1NotZero hz ho hz1 => exact ⟨hz, h1.mp ho, hz1⟩
  · cases h with | z2NotZero hz ho hz2 => exact ⟨hz, h2.mp ho, hz2⟩

/-! ### The response of a command (30_encoding.md R60) -/

/-- The response of a completing command: the byte `v` of `RSP` for `RECEIVE`, and no data for the other two. -/
def responseOf (v : Byte) : Instr → Response
  | .init _ _ => .done
  | .transmit _ _ => .done
  | .receive _ => .byte v

/-- The step from `s` to `t` is the last one of the command in progress, and answers the host. -/
def Completes (s t : State) : Prop :=
  t.stage = .idle ∧ ∃ i, s.running = some i ∧ t.responses = s.responses ++ [responseOf t.rsp i]

@[simp] theorem responses_divisorByte (half : DivWord → Byte) (s : State) :
    (divisorByte half s).2.responses = s.responses := by
  rcases divisorByte_state half s with h | h <;> rw [h]
  rfl

theorem response_of_seqMove {s t : State} (m : SeqMove s t) :
    (t.responses = s.responses ∧ (s.stage ≠ .idle → t.stage ≠ .idle)) ∨ Completes s t := by
  cases m with
  | idle h => exact .inl ⟨rfl, fun hs => absurd h hs⟩
  | init1 h => exact .inl ⟨rfl, fun _ => nofun⟩
  | init2 h => exact .inl ⟨responses_divisorByte hiByte s, fun _ => nofun⟩
  | init3 h => exact .inl ⟨responses_divisorByte loByte s, fun _ => nofun⟩
  | init4 h => exact .inl ⟨rfl, fun _ => nofun⟩
  | init5 h => exact .inr ⟨rfl, _, running_init (by simp [h]), rfl⟩
  | txPoll h => exact .inl ⟨rfl, fun _ => by rw [State.goto_stage]; split <;> nofun⟩
  | txWrite h => exact .inr ⟨rfl, _, running_transmit (.inr h), rfl⟩
  | rxPoll h => exact .inl ⟨rfl, fun _ => by rw [State.goto_stage]; split <;> nofun⟩
  | rxRead h => exact .inr ⟨rfl, _, running_receive (.inr h), rfl⟩

/-- The host hands a command over at `Idle` only, and is answered nothing then. -/
theorem response_of_hostMove {s t : State} (m : HostMove s t) :
    t.responses = s.responses ∧ (s.stage ≠ .idle → t.stage = s.stage) := by
  cases m with
  | waits => exact ⟨rfl, fun _ => rfl⟩
  | init hs => exact ⟨rfl, fun hn => absurd hs hn⟩
  | transmit hs => exact ⟨rfl, fun hn => absurd hs hn⟩
  | receive hs => exact ⟨rfl, fun hn => absurd hs hn⟩

theorem responses_lineTx (p : Port) (s : State) : (lineTx p s).responses = s.responses := by
  cases h : lineTxEnabled p s with
  | false => rw [lineTx_disabled h]
  | true =>
    obtain ⟨c, cs, k, ht, -⟩ := lineTx_enabled h
    rw [ht]
    rfl

/-- Of all the moves only a sequencer step completes a command, and only a reset abandons one. -/
theorem response_of_takeTurn {m : Turn} {s t : State} (h : takeTurn m s = .next t) :
    (t.responses = s.responses ∧ (s.stage ≠ .idle → t.stage = .idle → m = .reset)) ∨
      (m = .seq ∧ Completes s t) := by
  have kept {u : State} (hr : u.responses = s.responses) (hs : s.stage ≠ .idle → u.stage ≠ .idle) :
      u.responses = s.responses ∧ (s.stage ≠ .idle → u.stage = .idle → m = .reset) :=
    ⟨hr, fun hn ht => absurd ht (hs hn)⟩
  cases m with
  | host =>
    obtain ⟨hr, hs⟩ := response_of_hostMove (hostTurn_next h)
    exact .inl (kept hr fun hn => hs hn ▸ hn)
  | seq => exact (response_of_seqMove (seqTurn_next h)).imp (fun ⟨hr, hs⟩ => kept hr hs) fun hc => ⟨rfl, hc⟩
  | lineTx p => cases h; exact .inl (kept (responses_lineTx p s) fun hn => (lineKept_lineTx p s).stage ▸ hn)
  | lineRx p => cases h; exact .inl (kept (responses_lineRx p s) fun hn => (lineKept_lineRx p s).stage ▸ hn)
  | arrive p c => cases h; exact .inl (kept (responses_arrive p c s) fun hn => (lineKept_arrive p c s).stage ▸ hn)
  | reset => cases h; exact .inl ⟨rfl, fun _ _ => rfl⟩

/-- Settles O50, from what each agent's move answers, with the response of the command in progress written out. -/
theorem oneResponsePerCommand : Obligations.OneResponsePerCommand := by
  intro s t h
  have hresp := response_of_takeTurn (step_next h).2
  simp only [Completes, State.responses_useTurn, State.stage_useTurn, State.running_useTurn] at hresp
  refine hresp.imp_right fun ⟨hm, hidle, i, hi, hr⟩ => ⟨hm, hidle, ?_⟩
  cases i with
  | init p c => exact .inl ⟨p, c, hi, hr⟩
  | transmit p b => exact .inr (.inl ⟨p, b, hi, hr⟩)
  | receive p => exact .inr (.inr ⟨p, hi, hr⟩)

end Sys2Proof.Proofs

/-! PROOFS. The divisor (40_divisor.md): its value and bounds on the accepted range (R70 to R72), the two policies
outside it (R73), and its two bytes (R74), which recombine when `INIT` completes (R75). -/

namespace Sys2Proof.Proofs

open Sys2Proof.Machine Sys2Proof.Safety

/-! ### The quotient (40_divisor.md R70 to R72) -/

/-- The constant 16 cancels, at every baud rate (R72 (a)). -/
theorem div_eq (b : Nat) : div b = 460800 / b - 1 :=
  congrArg (· - 1) (Nat.div_div_eq_div_mul fOsc prescale b).symm

theorem inRange_iff (b : Nat) : inRange b = true ↔ 1200 ≤ b ∧ b ≤ 115200 := by
  rw [inRange, Bool.and_eq_true, decide_eq_true_iff, decide_eq_true_iff]
  rfl

/-- The two ends of the accepted range bound the quotient (R72 (b), (d)). -/
theorem quotient_bounds {b : Nat} (hlo : 1200 ≤ b) (hhi : b ≤ 115200) : 4 ≤ 460800 / b ∧ 460800 / b ≤ 384 :=
  ⟨(Nat.le_div_iff_mul_le (by omega)).mpr (by omega), Nat.div_le_of_le_mul (by omega)⟩

/-- In range the subtraction of 1 does not truncate (R72 (d)). -/
theorem div_add_one {b : Nat} (hlo : 1200 ≤ b) (hhi : b ≤ 115200) : div b + 1 = 460800 / b := by
  have hq := (quotient_bounds hlo hhi).1
  rw [div_eq]
  omega

theorem div_bounds {b : Nat} (hlo : 1200 ≤ b) (hhi : b ≤ 115200) : 3 ≤ div b ∧ div b ≤ 383 := by
  have hq := quotient_bounds hlo hhi
  have hd := div_add_one hlo hhi
  omega

/-- The divisor needs its high byte up to 1792, where the quotient is still 257 (R72 (e)). -/
theorem div_ge_256_iff {b : Nat} (hlo : 1200 ≤ b) (hhi : b ≤ 115200) : 256 ≤ div b ↔ b ≤ 1792 := by
  have hq : 257 ≤ 460800 / b ↔ 257 * b ≤ 460800 := Nat.le_div_iff_mul_le (by omega)
  have hd := div_add_one hlo hhi
  omega

/-- `DIV` is non-increasing (R72 (c)). -/
theorem div_antitone {b b' : Nat} (hpos : 0 < b) (h : b ≤ b') : div b' ≤ div b := by
  rw [div_eq, div_eq]
  exact Nat.sub_le_sub_right (Nat.div_le_div_left h hpos) 1

/-- Settles O7: `div b + 1` is the floor of the exact quotient. -/
theorem divisorTruncatesQuotient : Obligations.DivisorTruncatesQuotient := by
  refine ⟨fun b hlo hhi => ?_, rfl, rfl⟩
  have hpos : 0 < 16 * b := by omega
  have hfloor : div b + 1 = 7372800 / (16 * b) :=
    (div_add_one hlo hhi).trans (Nat.div_div_eq_div_mul 7372800 16 b)
  exact ⟨rfl, (Nat.le_div_iff_mul_le hpos).mp hfloor.le, (Nat.div_lt_iff_lt_mul hpos).mp (by omega)⟩

/-- Settles O8, from the bounds of the quotient. -/
theorem divisorBounds : Obligations.DivisorBounds := by
  refine ⟨fun b hlo hhi => ?_, fun b b' hlo h _ => div_antitone (by omega) h⟩
  obtain ⟨hmin, hmax⟩ := div_bounds hlo hhi
  have hhigh := div_ge_256_iff hlo hhi
  exact ⟨div_eq b, hmin, hmax, (quotient_bounds hlo hhi).1, by omega, by omega⟩

/-- Settles O9: the formula computed at each of the eight baud rates. -/
theorem supportedBaudRates : Obligations.SupportedBaudRates := by
  unfold Obligations.SupportedBaudRates
  decide

/-! ### Outside the accepted range (40_divisor.md R73) -/

theorem divisorFor_outOfRange {b : BitVec 32} (h : b.toNat < 1200 ∨ 115200 < b.toNat) :
    divisorFor .draw b = none ∧ divisorFor .wrap32 b = divWrap32 b := by
  have hout : inRange b.toNat ≠ true := fun hin => by
    have := (inRange_iff _).mp hin
    omega
  simp [divisorFor, hout]

/-- `16 * B` in 32-bit arithmetic. -/
theorem toNat_prescale_mul (b : BitVec 32) : (BitVec.ofNat 32 prescale * b).toNat = 16 * b.toNat % 2 ^ 32 :=
  BitVec.toNat_mul _ _

theorem divWrap32_of_zero {b : BitVec 32} (h : 16 * b.toNat % 2 ^ 32 = 0) : divWrap32 b = none :=
  if_pos (BitVec.eq_of_toNat_eq (y := 0#32) ((toNat_prescale_mul b).trans h))

theorem divWrap32_of_ne_zero {b : BitVec 32} (h : 16 * b.toNat % 2 ^ 32 ≠ 0) :
    divWrap32 b = some (BitVec.ofNat 16 ((7372800 / (16 * b.toNat % 2 ^ 32) + (2 ^ 32 - 1)) % 2 ^ 32)) := by
  have ht : BitVec.ofNat 32 prescale * b ≠ 0#32 := fun ht => h ((toNat_prescale_mul b).symm.trans (by rw [ht]; rfl))
  have hd : (BitVec.ofNat 32 fOsc / (BitVec.ofNat 32 prescale * b) - 1#32).toNat =
      (7372800 / (16 * b.toNat % 2 ^ 32) + (2 ^ 32 - 1)) % 2 ^ 32 := by
    rw [BitVec.toNat_sub, BitVec.toNat_udiv, toNat_prescale_mul, Nat.add_comm]
    rfl
  rw [← hd]
  exact if_neg ht

/-- Settles O10: the range decides whether the policy is asked, and `16 * B` in 32 bits what `wrap32` answers. -/
theorem outOfRangeDivisorPolicies : Obligations.OutOfRangeDivisorPolicies := by
  refine fun b => ⟨fun hin w => divisorFor_inRange ((inRange_iff _).mpr hin) w, fun hout => ?_⟩
  obtain ⟨hdraw, hwrap⟩ := divisorFor_outOfRange hout
  rw [hwrap]
  exact ⟨hdraw, divWrap32_of_zero, divWrap32_of_ne_zero⟩

/-! ### The two bytes of the divisor (40_divisor.md R74, R75) -/

theorem toNat_hiByte (d : DivWord) : (hiByte d).toNat = d.toNat / 256 := by
  rw [hiByte, BitVec.extractLsb'_toNat, Nat.shiftRight_eq_div_pow]
  exact Nat.mod_eq_of_lt (Nat.div_lt_of_lt_mul d.isLt)

theorem toNat_loByte (d : DivWord) : (loByte d).toNat = d.toNat % 256 := BitVec.extractLsb'_toNat 0 8 d

/-- The split of a 16-bit divisor loses nothing. -/
theorem hiByte_loByte_recombine (d : DivWord) : (hiByte d).toNat * 256 + (loByte d).toNat = d.toNat := by
  rw [toNat_hiByte, toNat_loByte, Nat.div_add_mod']

/-- The divisor `INIT` uses in range, as a number: `DIV(B)` fits its 16 bits. -/
theorem divisorFor_of_inRange {b : BitVec 32} (hlo : 1200 ≤ b.toNat) (hhi : b.toNat ≤ 115200) (w : OorPolicy) :
    ∃ d, divisorFor w b = some d ∧ d.toNat = div b.toNat := by
  refine ⟨_, divisorFor_inRange ((inRange_iff _).mpr ⟨hlo, hhi⟩) w, ?_⟩
  have hmax := (div_bounds hlo hhi).2
  exact Nat.mod_eq_of_lt (by omega)

/-- The completing step of `INIT` (42_init.md R95), on its own port. -/
theorem exec_init5 {s : State} (h : s.stage = .init5) :
    exec (.init s.port s.cfg) s =
      .next (((s.updUnit s.port fun u => { u with ctrlb := enb }).setReady s.port).respond .done) :=
  (exec_init_running (running_init (by simp [h]))).trans (initAdvance_init5 h)

/-- Settles O23: the invariant holds the two bytes written before, and the completing step keeps both registers. -/
theorem initRecombinesDivisor : Obligations.InitRecombinesDivisor := by
  intro s hinv hs hlo hhi
  obtain ⟨d, hd, hdiv⟩ := divisorFor_of_inRange hlo hhi s.setup.oorPolicy
  have hhigh : (s.unit s.port).baudh = hiByte d := hinv.highWritten (.inr (.inr hs)) d hd
  have hlow : (s.unit s.port).baudl = loByte d := hinv.lowWritten (.inr hs) d hd
  refine ⟨_, exec_init5 hs, ?_⟩
  rw [State.respond_unit, State.unit_setReady_same, State.unit_updUnit_same, hhigh, hlow, hiByte_loByte_recombine, hdiv]
  rfl

end Sys2Proof.Proofs

/-! PROOFS. The line format (41_line_format.md): the three codes (R80, R82, R83), the byte they make up (R84), and the
effective configuration read back from it (R87). -/

namespace Sys2Proof.Proofs

open Sys2Proof.Machine

/-! ### The three codes (41_line_format.md R80 to R83) -/

/-- Every data-bits operand other than 5, 6 and 7 has the code of 8. -/
theorem encDb_default {n : Byte} (h5 : n ≠ 5) (h6 : n ≠ 6) (h7 : n ≠ 7) : encDb n = encDb 8 := by
  unfold encDb
  exact (if_neg h5).trans ((if_neg h6).trans (if_neg h7))

/-- Settles O11: the four codes evaluated, and the default of R80. -/
theorem dataBitsEncoding : Obligations.DataBitsEncoding :=
  ⟨rfl, rfl, rfl, rfl, fun _ => encDb_default⟩

/-- Every parity operand other than ODD and EVEN has the code of NONE. -/
theorem encPar_default {y : Byte} (h1 : y ≠ 1) (h2 : y ≠ 2) : encPar y = 0b00#2 := by
  unfold encPar
  exact (if_neg h1).trans (if_neg h2)

/-- The codes of ODD, EVEN and NONE are all that `ENC_PAR` answers. -/
theorem encPar_cases (y : Byte) :
    (y = 1 ∧ encPar y = 0b11#2) ∨ (y = 2 ∧ encPar y = 0b10#2) ∨ (y ≠ 1 ∧ y ≠ 2 ∧ encPar y = 0b00#2) := by
  by_cases h1 : y = 1
  · exact .inl ⟨h1, h1 ▸ rfl⟩
  · by_cases h2 : y = 2
    · exact .inr (.inl ⟨h2, h2 ▸ rfl⟩)
    · exact .inr (.inr ⟨h1, h2, encPar_default h1 h2⟩)

/-- Settles O12: `ENC_PAR` answers three codes, and (0,1) is none of them. -/
theorem parityEncoding : Obligations.ParityEncoding := by
  refine ⟨rfl, rfl, fun _ => encPar_default, fun y => ?_, rfl, rfl⟩
  obtain ⟨-, h⟩ | ⟨-, h⟩ | ⟨-, -, h⟩ := encPar_cases y <;> rw [h] <;> decide

/-- Every stop-bits operand other than 1 sets the bit. -/
theorem encSb_default {s : Byte} (h : s ≠ 1) : encSb s = 1#1 := if_neg h

/-- Settles O13: one stop bit against every other operand. -/
theorem stopBitsEncoding : Obligations.StopBitsEncoding :=
  ⟨rfl, fun _ => encSb_default, rfl, rfl, rfl⟩

/-! ### The byte of the three codes (41_line_format.md R84) -/

/-- Three codes shifted to their positions do not overlap: the byte is their weighted sum. -/
theorem toNat_formatFields (x : BitVec 2) (y : BitVec 1) (z : BitVec 2) :
    ((x.setWidth 8 <<< pmLoBit) ||| (y.setWidth 8 <<< sbsBit) ||| (z.setWidth 8 <<< chsz0Bit)).toNat =
      16 * x.toNat + 8 * y.toNat + 2 * z.toNat := by
  revert x y z
  decide

/-- Settles O14: `FMT` is the three codes at their positions. -/
theorem formatByteIsFieldSum : Obligations.FormatByteIsFieldSum :=
  ⟨fun _ => toNat_formatFields _ _ _, enb_eq⟩

/-! ### The effective configuration (41_line_format.md R87) -/

/-- The data bits of an enabled port, read back: the operand, or 8 where R80 codes it as 8. -/
theorem dataBits_of_fmt {u : PortState} {c : PortConfig} (hc : u.ctrlc = fmt c) (hb : u.ctrlb = 0x18#8) :
    u.dataBits =
      some (if c.dataBits = 5 ∨ c.dataBits = 6 ∨ c.dataBits = 7 then c.dataBits.toNat else 8) := by
  have hz : u.chsz2 = false := by rw [PortState.chsz2, hb]; rfl
  have hn : u.dataBits = some (5 + (encDb c.dataBits).toNat) := by simp [PortState.dataBits, hz, chsz_of_fmt hc]
  rw [hn]
  by_cases hd : c.dataBits = 5 ∨ c.dataBits = 6 ∨ c.dataBits = 7
  · rw [if_pos hd]
    obtain h | h | h := hd <;> rw [h] <;> rfl
  · rw [if_neg hd]
    obtain ⟨h5, h6, h7⟩ : c.dataBits ≠ 5 ∧ c.dataBits ≠ 6 ∧ c.dataBits ≠ 7 := by simpa using hd
    rw [encDb_default h5 h6 h7]
    rfl

/-- The parity read back: the operand, or NONE where R82 codes it as NONE. -/
theorem parity_of_fmt {u : PortState} {c : PortConfig} (hc : u.ctrlc = fmt c) :
    u.parity = some (if c.parity = 1 then .odd else if c.parity = 2 then .even else .none) := by
  rw [PortState.parity, pm_of_fmt hc]
  obtain ⟨h, hp⟩ | ⟨h, hp⟩ | ⟨h1, h2, hp⟩ := encPar_cases c.parity
  · rw [hp, if_pos h]; rfl
  · rw [hp, h]; rfl
  · rw [hp, if_neg h1, if_neg h2]; rfl

/-- The stop bits read back: 1, or 2 where R83 codes the operand as 2. -/
theorem stopBits_of_fmt {u : PortState} {c : PortConfig} (hc : u.ctrlc = fmt c) :
    u.stopBits = if c.stopBits = 1 then 1 else 2 := by
  rw [PortState.stopBits, sbs_of_fmt hc]
  by_cases h : c.stopBits = 1
  · rw [if_pos h, h]; rfl
  · rw [if_neg h, encSb_default h]; rfl

/-- Settles O15: each field of the format byte reads back as its own operand or that operand's default. -/
theorem effectiveConfigurationReadsBack : Obligations.EffectiveConfigurationReadsBack := by
  intro u c hc hb
  rw [PortState.effective, dataBits_of_fmt hc hb, parity_of_fmt hc, stopBits_of_fmt hc]
  rfl

end Sys2Proof.Proofs

/-! PROOFS. `INIT` (42_init.md): what each of its steps does (R90 to R95), what all of them leave alone (R97, R98), and
its net effect, uninterrupted and with line-side steps in between (R99). -/

namespace Sys2Proof.Proofs

open Sys2Proof.Machine Sys2Proof.Safety

/-! ### The state operations of `INIT` -/

theorem updUnit_updUnit (s : State) (p : Port) (f g : PortState → PortState) :
    (s.updUnit p f).updUnit p g = s.updUnit p fun u => g (f u) := by
  simp [State.updUnit]

/-- A divisor byte is the half of the divisor where there is one, and all it touches is the count of free values
(40_divisor.md R73; log 22). -/
theorem divisorByte_spec (half : DivWord → Byte) (s : State) : ∃ v n, divisorByte half s = (v, s.setDrawn n) ∧
    ∀ d, divisorFor s.setup.oorPolicy s.cfg.baud = some d → v = half d ∧ n = s.drawn := by
  cases h : divisorFor s.setup.oorPolicy s.cfg.baud with
  | some d => exact ⟨half d, s.drawn, divisorByte_of_some h half, fun d' hd => by cases hd; exact ⟨rfl, rfl⟩⟩
  | none => exact ⟨_, _, divisorByte_of_none h half, nofun⟩

/-! ### Each step of `INIT` (42_init.md R91 to R95) -/

theorem exec_init1 {s : State} (h : s.stage = .init1) : exec (.init s.port s.cfg) s =
    .next ((s.updUnit s.port fun u => { u with ctrlb := 0 }).goto .init2) :=
  (exec_init_running (running_init (.inl h))).trans (initAdvance_init1 h)

theorem exec_init2 {s : State} (h : s.stage = .init2) : ∃ v n, exec (.init s.port s.cfg) s =
      .next (((s.setDrawn n).updUnit s.port fun u => { u with baudh := v }).goto .init3) ∧
    ∀ d, divisorFor s.setup.oorPolicy s.cfg.baud = some d → v = hiByte d ∧ n = s.drawn := by
  obtain ⟨v, n, hv, hd⟩ := divisorByte_spec hiByte s
  exact ⟨v, n, by rw [exec_init_running (running_init (by simp [h])), initAdvance_init2 h, hv], hd⟩

theorem exec_init3 {s : State} (h : s.stage = .init3) : ∃ v n, exec (.init s.port s.cfg) s =
      .next (((s.setDrawn n).updUnit s.port fun u => { u with baudl := v }).goto .init4) ∧
    ∀ d, divisorFor s.setup.oorPolicy s.cfg.baud = some d → v = loByte d ∧ n = s.drawn := by
  obtain ⟨v, n, hv, hd⟩ := divisorByte_spec loByte s
  exact ⟨v, n, by rw [exec_init_running (running_init (by simp [h])), initAdvance_init3 h, hv], hd⟩

theorem exec_init4 {s : State} (h : s.stage = .init4) : exec (.init s.port s.cfg) s =
    .next ((s.updUnit s.port fun u => { u with ctrlc := fmt s.cfg }).goto .init5) :=
  (exec_init_running (running_init (by simp [h]))).trans (initAdvance_init4 h)

/-- `exec_init5` with the enables and `READY` written by one update of the port (42_init.md R95). -/
theorem exec_init5_updUnit {s : State} (h : s.stage = .init5) : exec (.init s.port s.cfg) s =
    .next ((s.updUnit s.port fun u => { u with ctrlb := 0x18#8, ready := true }).respond .done) := by
  rw [exec_init5 h, State.setReady, updUnit_updUnit, enb_eq]

/-- Settles O18: the acceptance is `latchInit`. -/
theorem initAccepted : Obligations.InitAccepted := fun _ p c hs => exec_init_idle hs p c

/-- Settles O19: the first and the last store of `INIT`. -/
theorem initDisablesFirstEnablesLast : Obligations.InitDisablesFirstEnablesLast :=
  fun _ => ⟨exec_init1, exec_init5_updUnit⟩

/-- Settles O20: the two divisor stores, with the halves of the divisor as numbers. -/
theorem initWritesDivisorBytes : Obligations.InitWritesDivisorBytes := by
  refine fun s => ⟨fun hs => ?_, fun hs => ?_⟩
  · obtain ⟨v, n, hexec, hd⟩ := exec_init2 hs
    exact ⟨v, n, hexec, fun d h => (hd d h).imp_left fun hv => by rw [hv, toNat_hiByte]⟩
  · obtain ⟨v, n, hexec, hd⟩ := exec_init3 hs
    exact ⟨v, n, hexec, fun d h => (hd d h).imp_left fun hv => by rw [hv, toNat_loByte]⟩

/-- Settles O21: the store of `Init4` writes its whole register. -/
theorem initWritesFormat : Obligations.InitWritesFormat := fun _ => exec_init4

/-! ### The whole of `INIT`, step after step (42_init.md R99) -/

/-- The state inside an `INIT(p, c)` accepted in `s`: the unit of `p` is `u`, the stage `x`, and `n` free values have
been used. -/
def midInit (s : State) (p : Port) (c : PortConfig) (u : PortState) (x : Stage) (n : Nat) : State :=
  { s with ports := s.ports.set p u, port := p, cfg := c, stage := x, drawn := n }

/-- The acceptance is the first of the states inside `INIT`. -/
theorem latchInit_eq_midInit (s : State) (p : Port) (c : PortConfig) :
    s.latchInit p c = midInit s p c (s.unit p) .init1 s.drawn := by
  simp [State.latchInit, midInit, State.unit]

@[simp] theorem unit_midInit_same (s : State) (p : Port) (c : PortConfig) (u : PortState) (x : Stage) (n : Nat) :
    (midInit s p c u x n).unit p = u := Ports.get_set_same _ _ _

theorem unit_midInit_ne (s : State) {p q : Port} (c : PortConfig) (u : PortState) (x : Stage) (n : Nat)
    (h : q ≠ p) : (midInit s p c u x n).unit q = s.unit q := Ports.get_set_ne _ _ h

/-- An update of the command's own port leads from a state inside `INIT` to another one. -/
theorem midInit_updUnit (s : State) (p : Port) (c : PortConfig) (u : PortState) (x : Stage) (n : Nat)
    (f : PortState → PortState) : (midInit s p c u x n).updUnit p f = midInit s p c (f u) x n := by
  simp [midInit, State.updUnit]

/-- A store of `INIT` leads from one state inside it to the next. -/
theorem midInit_store (s : State) (p : Port) (c : PortConfig) (u : PortState) (x y : Stage) (n : Nat)
    (f : PortState → PortState) : ((midInit s p c u x n).updUnit p f).goto y = midInit s p c (f u) y n :=
  congrArg (State.goto · y) (midInit_updUnit s p c u x n f)

/-- Settles O22: the six steps are chained through the states inside `INIT`; in range, the divisor is `DIV`. -/
theorem initCompletesInFiveSteps : Obligations.InitCompletesInFiveSteps := by
  intro s p c hs
  have h0 : exec (.init p c) s = .next (midInit s p c (s.unit p) .init1 s.drawn) :=
    (exec_init_idle hs p c).trans (congrArg _ (latchInit_eq_midInit s p c))
  have h1 := exec_init1 (s := midInit s p c (s.unit p) .init1 s.drawn) rfl
  obtain ⟨hi, n, h2, hhi⟩ := exec_init2 (s := midInit s p c { s.unit p with ctrlb := 0 } .init2 s.drawn) rfl
  obtain ⟨lo, m, h3, hlo⟩ := exec_init3 (s := midInit s p c { s.unit p with ctrlb := 0, baudh := hi } .init3 n) rfl
  have h4 := exec_init4
    (s := midInit s p c { s.unit p with ctrlb := 0, baudh := hi, baudl := lo } .init4 m) rfl
  have h5 := exec_init5_updUnit
    (s := midInit s p c { s.unit p with ctrlb := 0, baudh := hi, baudl := lo, ctrlc := fmt c } .init5 m) rfl
  refine ⟨_, _, _, _, _, hi, lo, m, h0, rfl,
    h1.trans (congrArg _ (midInit_store ..)), rfl, h2.trans (congrArg _ (midInit_store ..)), rfl,
    h3.trans (congrArg _ (midInit_store ..)), rfl, h4.trans (congrArg _ (midInit_store ..)), rfl,
    h5.trans (congrArg (fun t : State => Host.Outcome.next (t.respond .done)) (midInit_updUnit ..)),
    fun hmin hmax => ?_⟩
  obtain ⟨d, hd, hdiv⟩ := divisorFor_of_inRange hmin hmax s.setup.oorPolicy
  obtain ⟨rfl, rfl⟩ := hhi d hd
  obtain ⟨rfl, rfl⟩ := hlo d hd
  rw [toNat_hiByte, toNat_loByte, hdiv]
  exact ⟨rfl, rfl, rfl⟩

/-- Settles O24: the invariant holds what was written before `Init5`, and the completing step keeps it. -/
theorem initNetEffectUnderInterleaving : Obligations.InitNetEffectUnderInterleaving := by
  intro s hinv hs
  refine ⟨_, exec_init5_updUnit hs, rfl, ?_⟩
  rw [State.respond_unit, State.unit_updUnit_same]
  refine ⟨hinv.formatWritten hs, rfl, rfl, fun d hd => ?_⟩
  have hhigh : (s.unit s.port).baudh = hiByte d := hinv.highWritten (.inr (.inr hs)) d hd
  have hlow : (s.unit s.port).baudl = loByte d := hinv.lowWritten (.inr hs) d hd
  exact ⟨hhigh ▸ toNat_hiByte d, hlow ▸ toNat_loByte d⟩

/-! ### The frame of `INIT` (42_init.md R97, R98; 20_memory.md R42) -/

/-- The register that a stage of `INIT` stores to (42_init.md R91 to R95). -/
def initReg : Stage → Option Reg
  | .idle => none
  | .init1 => some .ctrlb
  | .init2 => some .baudh
  | .init3 => some .baudl
  | .init4 => some .ctrlc
  | .init5 => some .ctrlb
  | .txPoll => none
  | .txWrite => none
  | .rxPoll => none
  | .rxRead => none

/-- An `INIT` in progress is that of the latches, at a stage that stores. -/
theorem latches_of_running_init {s : State} {p : Port} {c : PortConfig} (h : s.running = some (.init p c)) :
    s.port = p ∧ s.cfg = c ∧ ∃ r, initReg s.stage = some r := by
  cases hs : s.stage <;> simp_all [State.running, initReg]

/-- If a step of `INIT` answers `t`, it is the acceptance or the sequencer's step of that `INIT`. -/
theorem exec_init_next {p : Port} {c : PortConfig} {s t : State} (h : exec (.init p c) s = .next t) :
    (s.stage = .idle ∧ t = s.latchInit p c) ∨ (s.running = some (.init p c) ∧ SeqMove s t) := by
  have hstep : execInit p c s = .next t := h
  obtain ⟨hs, ht⟩ | ⟨hr, -⟩ := commandStep_next hstep
  · exact .inl ⟨hs, (Host.Outcome.next.inj ht).symm⟩
  · exact .inr ⟨hr, seqTurn_next ((seqTurn_running hr).trans h)⟩

/-- What of a port's unit is kept by a step of `INIT` that stores to no register but `r`: the holding registers, the
flags and the lines, which `INIT` never writes, and the other configuration registers. -/
structure InitKept (r : Option Reg) (u v : PortState) : Prop where
  txh     : v.txh = u.txh
  rxh     : v.rxh = u.rxh
  dre     : v.dre = u.dre
  rxc     : v.rxc = u.rxc
  lineOut : v.lineOut = u.lineOut
  lineIn  : v.lineIn = u.lineIn
  baudh   : r ≠ some .baudh → v.baudh = u.baudh
  baudl   : r ≠ some .baudl → v.baudl = u.baudl
  ctrlc   : r ≠ some .ctrlc → v.ctrlc = u.ctrlc
  ctrlb   : r ≠ some .ctrlb → v.ctrlb = u.ctrlb

theorem InitKept.refl (r : Option Reg) (u : PortState) : InitKept r u u :=
  ⟨rfl, rfl, rfl, rfl, rfl, rfl, fun _ => rfl, fun _ => rfl, fun _ => rfl, fun _ => rfl⟩

theorem initKept_baudh (u : PortState) (v : Byte) : InitKept (some .baudh) u { u with baudh := v } :=
  ⟨rfl, rfl, rfl, rfl, rfl, rfl, fun h => absurd rfl h, fun _ => rfl, fun _ => rfl, fun _ => rfl⟩

theorem initKept_baudl (u : PortState) (v : Byte) : InitKept (some .baudl) u { u with baudl := v } :=
  ⟨rfl, rfl, rfl, rfl, rfl, rfl, fun _ => rfl, fun h => absurd rfl h, fun _ => rfl, fun _ => rfl⟩

theorem initKept_ctrlc (u : PortState) (v : Byte) : InitKept (some .ctrlc) u { u with ctrlc := v } :=
  ⟨rfl, rfl, rfl, rfl, rfl, rfl, fun _ => rfl, fun _ => rfl, fun h => absurd rfl h, fun _ => rfl⟩

/-- `READY` is not kept: `Init5` sets it with the enables (42_init.md R95). -/
theorem initKept_ctrlb (u : PortState) (v : Byte) (b : Bool) :
    InitKept (some .ctrlb) u { u with ctrlb := v, ready := b } :=
  ⟨rfl, rfl, rfl, rfl, rfl, rfl, fun _ => rfl, fun _ => rfl, fun _ => rfl, fun h => absurd rfl h⟩

/-- All the state a step of `INIT` can touch: the register its stage stores to and `READY` of its port, `SEQ`, the
latches `PORT` and `CFG`, the record of responses and the count of free values. -/
theorem exec_init_frame {p : Port} {c : PortConfig} {s t : State} (h : exec (.init p c) s = .next t) :
    ∃ u x n rs, t = { midInit s p c u x n with responses := rs } ∧ InitKept (initReg s.stage) (s.unit p) u := by
  obtain ⟨-, rfl⟩ | ⟨hr, m⟩ := exec_init_next h
  · exact ⟨_, _, _, s.responses, latchInit_eq_midInit s p c, .refl _ _⟩
  · obtain ⟨rfl, rfl, r, hreg⟩ := latches_of_running_init hr
    cases m with
    | init1 hs =>
      rw [hs]
      exact ⟨_, .init2, s.drawn, s.responses, rfl, initKept_ctrlb _ 0 (s.unit s.port).ready⟩
    | init2 hs =>
      obtain ⟨v, n, hv, -⟩ := divisorByte_spec hiByte s
      rw [hs, hv]
      exact ⟨_, .init3, n, s.responses, rfl, initKept_baudh _ v⟩
    | init3 hs =>
      obtain ⟨v, n, hv, -⟩ := divisorByte_spec loByte s
      rw [hs, hv]
      exact ⟨_, .init4, n, s.responses, rfl, initKept_baudl _ v⟩
    | init4 hs =>
      rw [hs]
      exact ⟨_, .init5, s.drawn, s.responses, rfl, initKept_ctrlc _ (fmt s.cfg)⟩
    | init5 hs =>
      rw [hs, State.setReady, updUnit_updUnit]
      exact ⟨_, .idle, s.drawn, s.responses ++ [.done], rfl, initKept_ctrlb _ enb true⟩
    | idle hs | txPoll hs | txWrite hs | rxPoll hs | rxRead hs => simp [initReg, hs] at hreg

/-- What a step of `INIT` keeps of each port's unit: the other port's is kept whole (42_init.md R98). -/
theorem unit_of_exec_init {p : Port} {c : PortConfig} {s t : State} (h : exec (.init p c) s = .next t) (q : Port) :
    InitKept (initReg s.stage) (s.unit q) (t.unit q) ∧ (q ≠ p → t.unit q = s.unit q) := by
  obtain ⟨u, x, n, rs, rfl, hu⟩ := exec_init_frame h
  by_cases hq : q = p
  · subst hq
    have hunit : (midInit s q c u x n).unit q = u := unit_midInit_same s q c u x n
    exact ⟨hunit.symm ▸ hu, fun hne => absurd rfl hne⟩
  · have hunit : (midInit s p c u x n).unit q = s.unit q := unit_midInit_ne s c u x n hq
    exact ⟨hunit.symm ▸ .refl _ _, fun _ => hunit⟩

/-- Settles O25: `INIT` keeps the other port's unit, and its acceptance reads no port. -/
theorem initLeavesOtherPort : Obligations.InitLeavesOtherPort := by
  refine ⟨fun s t p c h => ?_, fun s p c u hs => ?_⟩
  · obtain ⟨-, hother⟩ := unit_of_exec_init h p.other
    exact hother (Port.other_ne p)
  · exact ⟨_, exec_init_idle (by exact hs) p c, Ports.get_set_same s.ports p.other u⟩

/-- Settles O26: what `INIT` keeps of each port, and its frame for the rest of the state. -/
theorem initPreservesPendingBytes : Obligations.InitPreservesPendingBytes := by
  intro s t p c h q
  obtain ⟨⟨htxh, hrxh, hdre, hrxc, hout, hin, -⟩, -⟩ := unit_of_exec_init h q
  obtain ⟨u, x, n, rs, rfl, -⟩ := exec_init_frame h
  exact ⟨htxh, hrxh, hdre, hrxc, hout, hin, rfl, rfl, rfl, rfl, rfl, rfl⟩

/-- What an address reads as is decided by the parameters and by what its register reads as. -/
theorem peek_congr {s t : State} {a : Nat} (hsetup : t.setup = s.setup)
    (h : ∀ q r, a = addr s.setup.regMap q r → regValue q r t = regValue q r s) : peek t a = peek s a := by
  rw [peek, peek, hsetup]
  exact Option.map_congr fun x hx => h x.1 x.2 (locate_some hx)

/-- What a register reads as is decided by its port's unit (20_memory.md R42). -/
theorem regValue_congr {s t : State} {p : Port} (h : t.unit p = s.unit p) (r : Reg) :
    regValue p r t = regValue p r s := by
  unfold regValue
  rw [h]

/-- A register other than the one the step stores to reads as before. -/
theorem regValue_of_initKept {o : Option Reg} {s t : State} {p : Port} {r : Reg}
    (h : InitKept o (s.unit p) (t.unit p)) (hr : o ≠ some r) : regValue p r t = regValue p r s := by
  cases r with
  | status => simp only [regValue, h.rxc, h.dre]
  | ctrlb => exact h.ctrlb hr
  | ctrlc => exact h.ctrlc hr
  | baudh => exact h.baudh hr
  | baudl => exact h.baudl hr
  | data => exact h.rxh

/-- Every address but that of the register the step stores to reads as before. -/
theorem peek_of_exec_init {p : Port} {c : PortConfig} {s t : State} (h : exec (.init p c) s = .next t) {a : Nat}
    (ha : ∀ r, initReg s.stage = some r → a ≠ addr s.setup.regMap p r) : peek t a = peek s a := by
  have hsetup : t.setup = s.setup := by
    obtain ⟨u, x, n, rs, rfl, -⟩ := exec_init_frame h
    rfl
  refine peek_congr hsetup fun q r hqr => ?_
  obtain ⟨hkept, hother⟩ := unit_of_exec_init h q
  by_cases hq : q = p
  · exact regValue_of_initKept hkept fun hr => ha r hr (hq ▸ hqr)
  · exact regValue_congr (hother hq) r

/-- `peek_of_exec_init` at a stage that stores to `r`. -/
theorem peek_of_initReg {p : Port} {c : PortConfig} {s t : State} (h : exec (.init p c) s = .next t) {r : Reg}
    (hr : initReg s.stage = some r) {a : Nat} (ha : a ≠ addr s.setup.regMap p r) : peek t a = peek s a :=
  peek_of_exec_init h fun r' hr' => by
    cases hr.symm.trans hr'
    exact ha

/-- Settles O27: an acceptance stores to no register, and each stage to its one. -/
theorem initBusFrame : Obligations.InitBusFrame := fun s t p c h a =>
  ⟨fun hs => peek_of_exec_init h (by rw [hs]; nofun),
    fun hs => peek_of_initReg h (congrArg initReg hs), fun hs => peek_of_initReg h (congrArg initReg hs),
    fun hs => peek_of_initReg h (congrArg initReg hs), fun hs => peek_of_initReg h (congrArg initReg hs),
    fun hs => peek_of_initReg h (congrArg initReg hs)⟩

end Sys2Proof.Proofs

/-! PROOFS. `TRANSMIT` and `RECEIVE` (43_transmit_receive.md): what each of their steps does (R100 to R106), the two
commands completing without a wait, and their frame. -/

namespace Sys2Proof.Proofs

open Sys2Proof.Machine Sys2Proof.Safety

/-! ### Each step of `TRANSMIT` and `RECEIVE` (43_transmit_receive.md R100 to R106) -/

theorem exec_transmit_accepted {s : State} {p : Port} (hs : s.stage = .idle) (hr : (s.unit p).ready = true) (b : Byte) :
    exec (.transmit p b) s = .next (s.latchTransmit p b) :=
  (exec_transmit_idle hs p b).trans (requireReady_ready hr _)

theorem exec_receive_accepted {s : State} {p : Port} (hs : s.stage = .idle) (hr : (s.unit p).ready = true) :
    exec (.receive p) s = .next (s.latchReceive p) :=
  (exec_receive_idle hs p).trans (requireReady_ready hr _)

theorem exec_txPoll {s : State} (h : s.stage = .txPoll) : exec (.transmit s.port s.txb) s =
    .next (s.goto (if (s.unit s.port).dre then .txWrite else .txPoll)) :=
  (exec_transmit_running (running_transmit (.inl h))).trans (transmitAdvance_poll h)

theorem exec_txWrite {s : State} (h : s.stage = .txWrite) : exec (.transmit s.port s.txb) s =
    .next ((s.updUnit s.port fun u => { u with txh := s.txb, dre := false }).respond .done) :=
  (exec_transmit_running (running_transmit (.inr h))).trans (transmitAdvance_write h)

theorem exec_rxPoll {s : State} (h : s.stage = .rxPoll) : exec (.receive s.port) s =
    .next (s.goto (if (s.unit s.port).rxc then .rxRead else .rxPoll)) :=
  (exec_receive_running (running_receive (.inl h))).trans (receiveAdvance_poll h)

theorem exec_rxRead {s : State} (h : s.stage = .rxRead) : exec (.receive s.port) s =
    .next (((s.updUnit s.port fun u => { u with rxc := false }).setRsp
      (s.unit s.port).rxh).respond (.byte (s.unit s.port).rxh)) :=
  (exec_receive_running (running_receive (.inr h))).trans (receiveAdvance_read h)

theorem exec_txPoll_empty {s : State} (h : s.stage = .txPoll) (hd : (s.unit s.port).dre = true) :
    exec (.transmit s.port s.txb) s = .next (s.goto .txWrite) := by
  rw [exec_txPoll h, if_pos hd]

theorem exec_rxPoll_full {s : State} (h : s.stage = .rxPoll) (hr : (s.unit s.port).rxc = true) :
    exec (.receive s.port) s = .next (s.goto .rxRead) := by
  rw [exec_rxPoll h, if_pos hr]

theorem seqTurn_txPoll {s : State} (h : s.stage = .txPoll) : seqTurn s =
    .next (s.goto (if (s.unit s.port).dre then .txWrite else .txPoll)) :=
  (seqTurn_running (running_transmit (.inl h))).trans (exec_txPoll h)

theorem seqTurn_txWrite {s : State} (h : s.stage = .txWrite) : seqTurn s =
    .next ((s.updUnit s.port fun u => { u with txh := s.txb, dre := false }).respond .done) :=
  (seqTurn_running (running_transmit (.inr h))).trans (exec_txWrite h)

theorem seqTurn_rxPoll {s : State} (h : s.stage = .rxPoll) : seqTurn s =
    .next (s.goto (if (s.unit s.port).rxc then .rxRead else .rxPoll)) :=
  (seqTurn_running (running_receive (.inl h))).trans (exec_rxPoll h)

theorem seqTurn_rxRead {s : State} (h : s.stage = .rxRead) : seqTurn s =
    .next (((s.updUnit s.port fun u => { u with rxc := false }).setRsp
      (s.unit s.port).rxh).respond (.byte (s.unit s.port).rxh)) :=
  (seqTurn_running (running_receive (.inr h))).trans (exec_rxRead h)

/-- Settles O28: the acceptance looks at `READY` of its port alone. -/
theorem transferAcceptance : Obligations.TransferAcceptance := fun _ p hs =>
  ⟨fun hr => ⟨exec_transmit_accepted hs hr, exec_receive_accepted hs hr⟩,
    fun hr => ⟨fun b => (exec_transmit_idle hs p b).trans (requireReady_uninitialized hr _),
      (exec_receive_idle hs p).trans (requireReady_uninitialized hr _)⟩⟩

/-- Settles O29: the two polls. -/
theorem pollsTestOneFlag : Obligations.PollsTestOneFlag := fun _ => ⟨exec_txPoll, exec_rxPoll⟩

/-- Settles O30: the store of `TxWrite`, which the invariant has only where `DRE` is set. -/
theorem transmitWritesByte : Obligations.TransmitWritesByte := fun _ hs =>
  ⟨exec_txWrite hs, fun hinv => hinv.writeEmpty hs⟩

/-- Settles O32: the read of `RxRead`, which the invariant has only where `RXC` is set. -/
theorem receiveReadsByte : Obligations.ReceiveReadsByte := fun _ hs =>
  ⟨exec_rxRead hs, fun hinv => hinv.readFull hs⟩

/-- Settles O31: acceptance, one poll and the store, chained. -/
theorem transmitCompletesWhenEmpty : Obligations.TransmitCompletesWhenEmpty := fun s p b hs hr hd =>
  ⟨s.latchTransmit p b, (s.latchTransmit p b).goto .txWrite, exec_transmit_accepted hs hr b, rfl,
    exec_txPoll_empty (s := s.latchTransmit p b) rfl hd, rfl,
    exec_txWrite (s := (s.latchTransmit p b).goto .txWrite) rfl⟩

/-- Settles O33: acceptance, one poll and the read, chained. -/
theorem receiveCompletesWhenFull : Obligations.ReceiveCompletesWhenFull := fun s p hs hr hc =>
  ⟨s.latchReceive p, (s.latchReceive p).goto .rxRead, exec_receive_accepted hs hr, rfl,
    exec_rxPoll_full (s := s.latchReceive p) rfl hc, rfl,
    exec_rxRead (s := (s.latchReceive p).goto .rxRead) rfl⟩

/-! ### The frame of `TRANSMIT` and `RECEIVE` (43_transmit_receive.md R100 to R105, 20_memory.md R42) -/

theorem requireReady_next {p : Port} {s t : State} {k : State → Result} (h : requireReady p s k = .next t) :
    k s = .next t := by
  cases hr : (s.unit p).ready with
  | true => rwa [requireReady_ready hr] at h
  | false => rw [requireReady_uninitialized hr] at h; cases h

/-- If a step of `TRANSMIT` answers `t`, it is the acceptance or the sequencer's step of that `TRANSMIT`. -/
theorem exec_transmit_next {p : Port} {b : Byte} {s t : State} (h : exec (.transmit p b) s = .next t) :
    (s.stage = .idle ∧ t = s.latchTransmit p b) ∨ (s.running = some (.transmit p b) ∧ SeqMove s t) := by
  have hstep : execTransmit p b s = .next t := h
  obtain ⟨hs, ht⟩ | ⟨hr, -⟩ := commandStep_next hstep
  · exact .inl ⟨hs, (Host.Outcome.next.inj (requireReady_next ht)).symm⟩
  · exact .inr ⟨hr, seqTurn_next ((seqTurn_running hr).trans h)⟩

/-- If a step of `RECEIVE` answers `t`, it is the acceptance or the sequencer's step of that `RECEIVE`. -/
theorem exec_receive_next {p : Port} {s t : State} (h : exec (.receive p) s = .next t) :
    (s.stage = .idle ∧ t = s.latchReceive p) ∨ (s.running = some (.receive p) ∧ SeqMove s t) := by
  have hstep : execReceive p s = .next t := h
  obtain ⟨hs, ht⟩ | ⟨hr, -⟩ := commandStep_next hstep
  · exact .inl ⟨hs, (Host.Outcome.next.inj (requireReady_next ht)).symm⟩
  · exact .inr ⟨hr, seqTurn_next ((seqTurn_running hr).trans h)⟩

/-- A `TRANSMIT` in progress is that of the latches. -/
theorem latches_of_running_transmit {s : State} {p : Port} {b : Byte} (h : s.running = some (.transmit p b)) :
    s.port = p ∧ s.txb = b ∧ (s.stage = .txPoll ∨ s.stage = .txWrite) := by
  cases hs : s.stage <;> simp_all [State.running]

/-- A `RECEIVE` in progress is that of the latch `PORT`. -/
theorem latches_of_running_receive {s : State} {p : Port} (h : s.running = some (.receive p)) :
    s.port = p ∧ (s.stage = .rxPoll ∨ s.stage = .rxRead) := by
  cases hs : s.stage <;> simp_all [State.running]

/-- The state after a step of `TRANSMIT(p, b)` from `s`: the unit of `p` is `u`, the stage `x`, the responses `rs`. -/
def midTransmit (s : State) (p : Port) (b : Byte) (u : PortState) (x : Stage) (rs : List Response) : State :=
  { s with ports := s.ports.set p u, port := p, txb := b, stage := x, responses := rs }

/-- The state after a step of `RECEIVE(p)` from `s`: the unit of `p` is `u`, the stage `x`, `RSP` is `v`, the responses
`rs`. -/
def midReceive (s : State) (p : Port) (u : PortState) (x : Stage) (v : Byte) (rs : List Response) : State :=
  { s with ports := s.ports.set p u, port := p, rsp := v, stage := x, responses := rs }

theorem midTransmit_own (s : State) (p : Port) (b : Byte) (x : Stage) (rs : List Response) :
    midTransmit s p b (s.unit p) x rs = { s with port := p, txb := b, stage := x, responses := rs } := by
  simp [midTransmit, State.unit]

theorem midReceive_own (s : State) (p : Port) (x : Stage) (v : Byte) (rs : List Response) :
    midReceive s p (s.unit p) x v rs = { s with port := p, rsp := v, stage := x, responses := rs } := by
  simp [midReceive, State.unit]

/-- All the state a step of `TRANSMIT` can touch: `TXH` and `DRE` of its port, and only in `TxWrite`; `SEQ`, its
latches and the record of responses. -/
theorem exec_transmit_frame {p : Port} {b : Byte} {s t : State} (h : exec (.transmit p b) s = .next t) :
    ∃ v d x rs, t = midTransmit s p b { s.unit p with txh := v, dre := d } x rs ∧
      (s.stage ≠ .txWrite → t.unit p = s.unit p) := by
  obtain ⟨-, rfl⟩ | ⟨hr, m⟩ := exec_transmit_next h
  · exact ⟨_, _, .txPoll, s.responses, (midTransmit_own ..).symm, fun _ => rfl⟩
  · obtain ⟨rfl, rfl, hs⟩ := latches_of_running_transmit hr
    cases m with
    | txPoll => exact ⟨_, _, _, s.responses, (midTransmit_own ..).symm, fun _ => rfl⟩
    | txWrite hw => exact ⟨_, _, _, _, rfl, fun hn => absurd hw hn⟩
    | idle hx | init1 hx | init2 hx | init3 hx | init4 hx | init5 hx | rxPoll hx | rxRead hx => simp [hx] at hs

/-- All the state a step of `RECEIVE` can touch: `RXC` of its port, and only in `RxRead`; `SEQ`, its latches and the
record of responses. -/
theorem exec_receive_frame {p : Port} {s t : State} (h : exec (.receive p) s = .next t) :
    ∃ c x v rs, t = midReceive s p { s.unit p with rxc := c } x v rs ∧
      (s.stage ≠ .rxRead → t.unit p = s.unit p) := by
  obtain ⟨-, rfl⟩ | ⟨hr, m⟩ := exec_receive_next h
  · exact ⟨_, .rxPoll, s.rsp, s.responses, (midReceive_own ..).symm, fun _ => rfl⟩
  · obtain ⟨rfl, hs⟩ := latches_of_running_receive hr
    cases m with
    | rxPoll => exact ⟨_, _, s.rsp, s.responses, (midReceive_own ..).symm, fun _ => rfl⟩
    | rxRead hw => exact ⟨_, _, _, _, rfl, fun hn => absurd hw hn⟩
    | idle hx | init1 hx | init2 hx | init3 hx | init4 hx | init5 hx | txPoll hx | txWrite hx => simp [hx] at hs

/-- What the bus shows of a step that changes `TXH` and the flags of one port at most, and nothing if `P`: `TXH` is
read at no address, and the flags at that of `STATUS` alone (20_memory.md R42). -/
theorem peek_of_flags {P : Prop} {s t : State} {p : Port} {v : Byte} {d c : Bool} (hsetup : t.setup = s.setup)
    (hother : t.unit p.other = s.unit p.other) (hown : t.unit p = { s.unit p with txh := v, dre := d, rxc := c })
    (hquiet : P → t.unit p = s.unit p) (a : Nat) :
    (P → peek t a = peek s a) ∧ (a ≠ addr s.setup.regMap p .status → peek t a = peek s a) := by
  have hread {q : Port} {r : Reg} (hr : q = p → regValue p r t = regValue p r s) :
      regValue q r t = regValue q r s := by
    by_cases hq : q = p
    · exact hq ▸ hr hq
    · exact regValue_congr (Port.eq_other_of_ne hq ▸ hother) r
  refine ⟨fun hP => peek_congr hsetup fun q r _ => hread fun _ => regValue_congr (hquiet hP) r,
    fun ha => peek_congr hsetup fun q r hqr => hread fun hq => ?_⟩
  cases r with
  | status => exact absurd (hq ▸ hqr) ha
  | _ => rw [regValue, regValue, hown]

/-- Settles O34, from the frames of the two commands and what the bus shows of `TXH` and the flags. -/
theorem transferFrame : Obligations.TransferFrame := by
  refine ⟨fun s t p b h => ?_, fun s t p h => ?_⟩
  · obtain ⟨v, d, x, rs, ht, hquiet⟩ := exec_transmit_frame h
    have hown : t.unit p = { s.unit p with txh := v, dre := d } := ht ▸ Ports.get_set_same _ _ _
    have hother : t.unit p.other = s.unit p.other := ht ▸ Ports.get_set_other _ _ _
    have hbus := peek_of_flags (ht ▸ rfl : t.setup = s.setup) hother hown hquiet
    refine ⟨hbus, hother, by rw [hown], ?_⟩
    rw [ht]
    exact ⟨rfl, rfl, rfl, rfl, rfl, rfl, rfl⟩
  · obtain ⟨c, x, v, rs, ht, hquiet⟩ := exec_receive_frame h
    have hown : t.unit p = { s.unit p with rxc := c } := ht ▸ Ports.get_set_same _ _ _
    have hother : t.unit p.other = s.unit p.other := ht ▸ Ports.get_set_other _ _ _
    have hbus := peek_of_flags (ht ▸ rfl : t.setup = s.setup) hother hown hquiet
    refine ⟨hbus, hother, by rw [hown], ?_⟩
    rw [ht]
    exact ⟨rfl, rfl, rfl, rfl, rfl, rfl, rfl⟩

end Sys2Proof.Proofs

/-! PROOFS. The lines (43_transmit_receive.md): what the move of each line-side agent does (R107 to R110, R113, R115),
and the two sides of a port as queues (R111). -/

namespace Sys2Proof.Proofs

open Sys2Proof.Machine Sys2Proof.Safety

/-! ### The line-side agents (43_transmit_receive.md R107 to R110) -/

/-- Settles O39: the step of `LineTx` with nothing delivered and no value drawn, and the agent without a step. -/
theorem lineTxTakesByte : Obligations.LineTxTakesByte := by
  refine fun s p => ⟨fun hen hfree n hn => ?_, fun hoff => ?_⟩
  · obtain ⟨c, cs, k, ht, hnil, hbits⟩ := lineTx_enabled hen
    obtain ⟨rfl, hk, -⟩ := hbits n hn
    rw [takeTurn, ht, hnil hfree, hk hfree, State.appendIn_nil, and_charMask (dataBits_le hn)]
    rfl
  · have hdis : lineTxEnabled p s = false := by
      rcases hoff with h | h
      · exact (Bool.and_eq_false_iff).mpr (.inl h)
      · simp [lineTxEnabled, h]
    exact congrArg _ (lineTx_disabled hdis)

/-- Settles O40: the step of `LineTx` with its delivery, which is the character itself between equal formats. -/
theorem loopbackDelivery : Obligations.LoopbackDelivery := by
  intro s p n hen hloop hn
  obtain ⟨c, cs, k, ht, -, hbits⟩ := lineTx_enabled hen
  obtain ⟨rfl, -, hsame⟩ := hbits n hn
  rw [and_charMask (dataBits_le hn)] at ht hsame
  refine ⟨cs, k, ?_, fun e he he' => hsame hloop (by simp [sameFormat, he, he'])⟩
  rw [takeTurn, ht, State.unit, State.unit, ← Ports.get_set_other s.ports p]
  rfl

/-- Settles O41: the deposit, the discard and the silent line of `LineRx`, and the arrival in either wiring. -/
theorem lineRxDepositsOrDiscards : Obligations.LineRxDepositsOrDiscards := by
  refine fun s p => ⟨fun c cs n hin hen hrxc hn => ?_, fun c cs hin hoff => ?_, fun hin => ?_, fun c hfree => ?_,
    fun c hloop => ?_⟩
  · obtain ⟨v, k, ht, hbits⟩ := lineRx_deposit hin hen hrxc
    obtain ⟨rfl, rfl⟩ := hbits n hn
    rw [takeTurn, ht, and_charMask (dataBits_le hn)]
    rfl
  · exact congrArg _ (lineRx_discard hin hoff)
  · exact congrArg _ (lineRx_nil hin)
  · exact congrArg _ (arrive_free hfree p c)
  · exact congrArg _ (arrive_loopback hloop p c)

/-! ### The transmit side as a queue (43_transmit_receive.md R111) -/

/-- What has left a port and what waits to leave it, oldest first, each byte as its low `n` bits. -/
def outQueue (n : Nat) (u : PortState) : List Byte :=
  u.lineOut ++ if u.dre then [] else [BitVec.ofNat 8 (u.txh.toNat % 2 ^ n)]

/-- `LineTx` moves the waiting byte to the line, where the queue has it at the same place (R110). -/
theorem outQueue_lineTx_own {n : Nat} {p : Port} {s : State} (hn : (s.unit p).dataBits = some n) :
    outQueue n ((lineTx p s).unit p) = outQueue n (s.unit p) := by
  cases hen : lineTxEnabled p s with
  | false => rw [lineTx_disabled hen]
  | true =>
    obtain ⟨c, cs, k, ht, -, hbits⟩ := lineTx_enabled hen
    obtain ⟨rfl, -, -⟩ := hbits n hn
    have hdre : (s.unit p).dre = false := by simpa using (Bool.and_eq_true_iff.mp hen).2
    rw [ht, State.setDrawn_unit, State.unit_appendIn_ne _ _ (Port.ne_other p), State.unit_updUnit_same,
      and_charMask (dataBits_le hn)]
    simp [outQueue, hdre]

theorem outQueue_lineTx {n : Nat} {p : Port} {s : State} (hn : (s.unit p).dataBits = some n) (q : Port) :
    outQueue n ((lineTx q s).unit p) = outQueue n (s.unit p) := by
  by_cases hq : q = p
  · subst hq
    exact outQueue_lineTx_own hn
  · obtain ⟨cs, hcs, -⟩ := unit_lineTx_other p s
    rw [Port.eq_other_of_ne hq, hcs]
    rfl

theorem outQueue_lineRx (n : Nat) (q p : Port) (s : State) :
    outQueue n ((lineRx q s).unit p) = outQueue n (s.unit p) := by
  obtain ⟨l, v, r, k, ht⟩ := lineRx_frame q s
  rw [ht, State.setDrawn_unit, updUnit_keeps (outQueue n) p]

theorem outQueue_arrive (n : Nat) (q p : Port) (c : Byte) (s : State) :
    outQueue n ((arrive q c s).unit p) = outQueue n (s.unit p) := by
  obtain ⟨l, ht⟩ := arrive_frame q c s
  rw [ht, updUnit_keeps (outQueue n) p]

/-- The sequencer is at `TxWrite` of port `p`. -/
theorem stage_of_seq_txWrite {s : State} {p : Port} (h : s.seq = .txWrite p) : s.stage = .txWrite ∧ s.port = p := by
  cases hs : s.stage <;> simp_all [State.seq]

/-- No step of the sequencer but `TxWrite` reaches the queue. -/
theorem outQueue_of_seqMove {n : Nat} {s t : State} (m : SeqMove s t) {p : Port} (hs : s.seq ≠ .txWrite p) :
    outQueue n (t.unit p) = outQueue n (s.unit p) := by
  by_cases hp : p = s.port
  · subst hp
    cases m with
    | txWrite h => exact absurd (by simp [State.seq, h]) hs
    | txPoll | rxPoll => rfl
    | _ => simp [outQueue]
  · rw [unit_other_of_seqMove m hp]

/-- `TxWrite` appends its byte, for it finds none waiting (20_memory.md R46). -/
theorem outQueue_txWrite {n : Nat} {s t : State} {p : Port} (h : seqTurn s = .next t) (hs : s.seq = .txWrite p)
    (hempty : (s.unit p).dre = true) :
    outQueue n (t.unit p) = outQueue n (s.unit p) ++ [BitVec.ofNat 8 (s.txb.toNat % 2 ^ n)] := by
  obtain ⟨hw, rfl⟩ := stage_of_seq_txWrite hs
  rw [seqTurn_txWrite hw] at h
  cases h
  simp [outQueue, hempty]

/-- The queue of a port under the move of any agent (R111). -/
theorem outQueue_takeTurn {n : Nat} {m : Turn} {s t : State} {p : Port} (hinv : Inv s) (hm : m ≠ .reset)
    (hn : (s.unit p).dataBits = some n) (h : takeTurn m s = .next t) :
    outQueue n (t.unit p) = outQueue n (s.unit p) ++
      if m = .seq ∧ s.seq = .txWrite p then [BitVec.ofNat 8 (s.txb.toNat % 2 ^ n)] else [] := by
  cases m with
  | host => simp [unit_of_hostMove (hostTurn_next h)]
  | seq =>
    by_cases hs : s.seq = .txWrite p
    · obtain ⟨hw, rfl⟩ := stage_of_seq_txWrite hs
      rw [if_pos ⟨rfl, hs⟩, outQueue_txWrite h hs (hinv.writeEmpty hw)]
    · rw [if_neg fun hm => hs hm.2, List.append_nil, outQueue_of_seqMove (seqTurn_next h) hs]
  | lineTx q => cases h; simp [outQueue_lineTx hn]
  | lineRx q => cases h; simp [outQueue_lineRx]
  | arrive q c => cases h; simp [outQueue_arrive]
  | reset => exact absurd rfl hm

/-- Settles O42, from what each agent's move does to the queue. -/
theorem transmittedBytesInOrder : Obligations.TransmittedBytesInOrder := by
  intro s t p n hinv h hm hn
  have hq := outQueue_takeTurn (p := p) (n := n) (inv_of_lineKept hinv (lineKept_useTurn s)) hm (by simpa using hn)
    (step_next h).2
  rw [State.unit_useTurn, State.seq_useTurn, State.txb_useTurn] at hq
  exact hq

/-! ### The receive side, one byte (43_transmit_receive.md R105, R109, R111) -/

/-- What the receive side of a port holds: whether a byte waits, and the byte. -/
def inHeld (u : PortState) : Bool × Byte := (u.rxc, u.rxh)

theorem inHeld_lineTx (q : Port) (s : State) (p : Port) : inHeld ((lineTx q s).unit p) = inHeld (s.unit p) := by
  cases h : lineTxEnabled q s with
  | false => rw [lineTx_disabled h]
  | true =>
    obtain ⟨c, cs, k, ht, -⟩ := lineTx_enabled h
    rw [ht, State.setDrawn_unit, State.appendIn, updUnit_keeps inHeld p, updUnit_keeps inHeld p]

theorem inHeld_arrive (q : Port) (c : Byte) (s : State) (p : Port) :
    inHeld ((arrive q c s).unit p) = inHeld (s.unit p) := by
  obtain ⟨l, ht⟩ := arrive_frame q c s
  rw [ht, updUnit_keeps inHeld p]

/-- The step from `s` to `t` deposits the head of the arrivals of port `p`, sized to `n` bits, where no byte waited. -/
def Deposits (n : Nat) (p : Port) (s t : State) : Prop :=
  (s.unit p).rxc = false ∧ (t.unit p).rxc = true ∧
    ∃ c, (s.unit p).lineIn = c :: (t.unit p).lineIn ∧ (t.unit p).rxh = BitVec.ofNat 8 (c.toNat % 2 ^ n)

/-- `LineRx` deposits a byte on its own port, or leaves what is held (R109). -/
theorem inHeld_lineRx {n : Nat} {p : Port} {s : State} (hn : (s.unit p).dataBits = some n) (q : Port) :
    inHeld ((lineRx q s).unit p) = inHeld (s.unit p) ∨ (q = p ∧ Deposits n p s (lineRx q s)) := by
  by_cases hq : q = p
  · subst hq
    cases hin : (s.unit q).lineIn with
    | nil => exact .inl (by rw [lineRx_nil hin])
    | cons c cs =>
      by_cases hd : (s.unit q).rxen = false ∨ (s.unit q).rxc = true
      · exact .inl (by rw [lineRx_discard hin hd, updUnit_keeps inHeld q])
      · obtain ⟨hen, hrxc⟩ : (s.unit q).rxen = true ∧ (s.unit q).rxc = false := by simpa using hd
        obtain ⟨v, k, ht, hbits⟩ := lineRx_deposit hin hen hrxc
        obtain ⟨rfl, -⟩ := hbits n hn
        rw [and_charMask (dataBits_le hn)] at ht
        refine .inr ⟨rfl, hrxc, ?_⟩
        rw [ht, State.setDrawn_unit, State.unit_updUnit_same]
        exact ⟨rfl, c, hin, rfl⟩
  · rw [Port.eq_other_of_ne hq, unit_lineRx_other]
    exact .inl rfl

/-- The step from `s` to `t` answers the byte waiting on port `p`, which then waits no longer. -/
def Answers (p : Port) (s t : State) : Prop :=
  (s.unit p).rxc = true ∧ (t.unit p).rxc = false ∧ t.responses = s.responses ++ [.byte (s.unit p).rxh]

/-- The sequencer is at `RxRead` of port `p`. -/
theorem stage_of_seq_rxRead {s : State} {p : Port} (h : s.seq = .rxRead p) : s.stage = .rxRead ∧ s.port = p := by
  cases hs : s.stage <;> simp_all [State.seq]

/-- No step of the sequencer but `RxRead` reaches what is held. -/
theorem inHeld_of_seqMove {s t : State} (m : SeqMove s t) {p : Port} (hs : s.seq ≠ .rxRead p) :
    inHeld (t.unit p) = inHeld (s.unit p) := by
  by_cases hp : p = s.port
  · subst hp
    cases m with
    | rxRead h => exact absurd (by simp [State.seq, h]) hs
    | _ => simp [inHeld]
  · rw [unit_other_of_seqMove m hp]

/-- `RxRead` answers the byte held, for it finds one (20_memory.md R46). -/
theorem answers_rxRead {s t : State} {p : Port} (h : seqTurn s = .next t) (hs : s.seq = .rxRead p)
    (hfull : (s.unit p).rxc = true) : Answers p s t := by
  obtain ⟨hr, rfl⟩ := stage_of_seq_rxRead hs
  rw [seqTurn_rxRead hr] at h
  cases h
  exact ⟨hfull, by simp, by simp⟩

/-- What a port holds under the move of any agent (R111). -/
theorem inHeld_takeTurn {n : Nat} {m : Turn} {s t : State} {p : Port} (hinv : Inv s) (hm : m ≠ .reset)
    (hn : (s.unit p).dataBits = some n) (h : takeTurn m s = .next t) :
    (¬ (m = .seq ∧ s.seq = .rxRead p) ∧ inHeld (t.unit p) = inHeld (s.unit p)) ∨
      (m = .lineRx p ∧ Deposits n p s t) ∨ ((m = .seq ∧ s.seq = .rxRead p) ∧ Answers p s t) := by
  cases m with
  | host => exact .inl ⟨nofun, by rw [unit_of_hostMove (hostTurn_next h)]⟩
  | seq =>
    by_cases hs : s.seq = .rxRead p
    · obtain ⟨hr, rfl⟩ := stage_of_seq_rxRead hs
      exact .inr (.inr ⟨⟨rfl, hs⟩, answers_rxRead h hs (hinv.readFull hr)⟩)
    · exact .inl ⟨fun hm => hs hm.2, inHeld_of_seqMove (seqTurn_next h) hs⟩
  | lineTx q => cases h; exact .inl ⟨nofun, inHeld_lineTx q s p⟩
  | lineRx q =>
    cases h
    obtain hu | ⟨rfl, hd⟩ := inHeld_lineRx hn q
    · exact .inl ⟨nofun, hu⟩
    · exact .inr (.inl ⟨rfl, hd⟩)
  | arrive q c => cases h; exact .inl ⟨nofun, inHeld_arrive q c s p⟩
  | reset => exact absurd rfl hm

/-- Settles O43, from what each agent's move does to the byte held. -/
theorem receivedBytesInOrder : Obligations.ReceivedBytesInOrder := by
  intro s t p n hinv h hm hn
  have hheld := inHeld_takeTurn (p := p) (n := n) (inv_of_lineKept hinv (lineKept_useTurn s)) hm (by simpa using hn)
    (step_next h).2
  simp only [Deposits, Answers, State.unit_useTurn, State.seq_useTurn, State.responses_useTurn] at hheld
  obtain ⟨hs, hu⟩ | ⟨hrx, hempty, hfull, hc⟩ | ⟨⟨hseq, hs⟩, hfull, hempty, hr⟩ := hheld
  · obtain ⟨hc, hh⟩ := Prod.ext_iff.mp hu
    exact .inl ⟨hs, hc, hh⟩
  · exact .inr (.inl ⟨hempty, hfull, hrx, hc⟩)
  · exact .inr (.inr ⟨hfull, hempty, hseq, hs, hr⟩)

end Sys2Proof.Proofs

/-! PROOFS. Progress (43_transmit_receive.md R112): what a turn that keeps coming brings about along an endless
schedule, and the end of an accepted `TRANSMIT`. -/

namespace Sys2Proof.Proofs

open Sys2Proof.Machine Sys2Proof.Safety

/-! ### Runs of an endless schedule -/

/-- A run of some moves goes on with further ones. -/
theorem runTurns_append {ms : List Turn} {s t : State} (h : runTurns ms s = .next t) (ns : List Turn) :
    runTurns (ms ++ ns) s = runTurns ns t := by
  induction ms generalizing s with
  | nil => cases h; rfl
  | cons m ms ih =>
    rw [List.cons_append]
    cases hm : takeTurn m s with
    | next u =>
      rw [runTurns_cons hm] at h ⊢
      exact ih h
    | fault r => simp [runTurns, hm] at h
    | refused r => simp [runTurns, hm] at h

theorem moves_succ (f : Nat → Turn) (n : Nat) : moves f (n + 1) = moves f n ++ [f n] := by
  simp [moves, List.range_succ]

theorem runTurns_moves_succ {f : Nat → Turn} {n : Nat} {s t u : State} (h : runTurns (moves f n) s = .next t)
    (hu : takeTurn (f n) t = .next u) : runTurns (moves f (n + 1)) s = .next u := by
  rw [moves_succ, runTurns_append h, runTurns_cons hu, runTurns_nil]

/-- Some first moves of the schedule `f` from `s` end in a state of `P`. -/
def Reaches (f : Nat → Turn) (s : State) (P : State → Prop) : Prop :=
  ∃ n t, runTurns (moves f n) s = .next t ∧ P t

/-- Along the schedule `f` from `s` the turn `x` comes again if `P` holds from some point on. -/
def ComesWhile (f : Nat → Turn) (s : State) (x : Turn) (P : State → Prop) : Prop :=
  ∀ n, (∀ m, n ≤ m → ∃ t, runTurns (moves f m) s = .next t ∧ P t) → ∃ m, n ≤ m ∧ f m = x

theorem comesWhile_lineTx {f : Nat → Turn} {s : State} {p : Port} {P : State → Prop} (h : FairLineTx f s p)
    (hP : ∀ t, P t → lineTxEnabled p t = true) : ComesWhile f s (.lineTx p) P := fun n hn =>
  h n fun m hm => (hn m hm).imp fun t ht => ht.imp_right (hP t)

theorem comesWhile_lineRx {f : Nat → Turn} {s : State} {p : Port} {P : State → Prop} (h : FairLineRx f s p)
    (hP : ∀ t, P t → (t.unit p).lineIn ≠ []) : ComesWhile f s (.lineRx p) P := fun n hn =>
  h n fun m hm => (hn m hm).imp fun t ht => ht.imp_right (hP t)

/-- The rule of progress: if every move from `P` leads to `Q` or stays in `P`, and the move of `x` does not stay, then
`Q` follows `P`, since otherwise `P` would hold for ever and `x` would come. -/
theorem Reaches.leadsTo {f : Nat → Turn} {s : State} {x : Turn} {P Q : State → Prop} (hP : Reaches f s P)
    (hreset : ∀ n, f n ≠ .reset) (hcomes : ComesWhile f s x P)
    (hstep : ∀ m t, m ≠ .reset → P t → ∃ u, takeTurn m t = .next u ∧ (Q u ∨ (P u ∧ m ≠ x))) : Reaches f s Q := by
  obtain ⟨n, t, hn, ht⟩ := hP
  by_contra hQ
  have stays {m : Nat} {u : State} (hm : runTurns (moves f m) s = .next u) (hu : P u) :
      f m ≠ x ∧ ∃ v, runTurns (moves f (m + 1)) s = .next v ∧ P v := by
    obtain ⟨v, hv, hq | ⟨hp, hx⟩⟩ := hstep (f m) u (hreset m) hu
    · exact absurd ⟨m + 1, v, runTurns_moves_succ hm hv, hq⟩ hQ
    · exact ⟨hx, v, runTurns_moves_succ hm hv, hp⟩
  have always : ∀ m, n ≤ m → ∃ u, runTurns (moves f m) s = .next u ∧ P u := by
    intro m hm
    induction m, hm using Nat.le_induction with
    | base => exact ⟨t, hn, ht⟩
    | succ m _ ih =>
      obtain ⟨u, hu, hp⟩ := ih
      exact (stays hu hp).2
  obtain ⟨m, hm, hx⟩ := hcomes n always
  obtain ⟨u, hu, hp⟩ := always m hm
  exact (stays hu hp).1 hx

/-! ### What a line-side move leaves of the host's side -/

/-- What a line-side move leaves of the block: what `LineKept` says, the byte latched, the host's commands and the
responses. -/
structure AgentKept (s t : State) : Prop extends LineKept s t where
  txb       : t.txb = s.txb
  cmds      : t.cmds = s.cmds
  responses : t.responses = s.responses

theorem txb_lineTx (p : Port) (s : State) : (lineTx p s).txb = s.txb := by
  cases h : lineTxEnabled p s with
  | false => rw [lineTx_disabled h]
  | true =>
    obtain ⟨c, cs, k, ht, -⟩ := lineTx_enabled h
    rw [ht]
    rfl

theorem txb_lineRx (p : Port) (s : State) : (lineRx p s).txb = s.txb := by
  obtain ⟨l, v, r, k, h⟩ := lineRx_frame p s
  rw [h]
  rfl

theorem txb_arrive (p : Port) (c : Byte) (s : State) : (arrive p c s).txb = s.txb := by
  obtain ⟨l, h⟩ := arrive_frame p c s
  rw [h]
  rfl

theorem agentKept_useTurn (s : State) : AgentKept s s.useTurn :=
  ⟨lineKept_useTurn s, s.txb_useTurn, s.cmds_useTurn, s.responses_useTurn⟩

theorem agentKept_lineTx (p : Port) (s : State) : AgentKept s (lineTx p s) :=
  ⟨lineKept_lineTx p s, txb_lineTx p s, cmds_lineTx p s, responses_lineTx p s⟩

theorem agentKept_lineRx (p : Port) (s : State) : AgentKept s (lineRx p s) :=
  ⟨lineKept_lineRx p s, txb_lineRx p s, cmds_lineRx p s, responses_lineRx p s⟩

theorem agentKept_arrive (p : Port) (c : Byte) (s : State) : AgentKept s (arrive p c s) :=
  ⟨lineKept_arrive p c s, txb_arrive p c s, cmds_arrive p c s, responses_arrive p c s⟩

/-- While a command is in progress, every move but the sequencer's and a reset is a line-side move: the host waits. -/
theorem agentKept_of_busy {m : Turn} {s : State} (hs : s.stage ≠ .idle) (hm : m ≠ .seq) (hr : m ≠ .reset) :
    ∃ t, takeTurn m s = .next t ∧ AgentKept s t := by
  cases m with
  | host => exact ⟨s, hostTurn_waits (.inl hs), .refl s, rfl, rfl, rfl⟩
  | seq => exact absurd rfl hm
  | lineTx p => exact ⟨_, rfl, agentKept_lineTx p s⟩
  | lineRx p => exact ⟨_, rfl, agentKept_lineRx p s⟩
  | arrive p c => exact ⟨_, rfl, agentKept_arrive p c s⟩
  | reset => exact absurd rfl hr

/-! ### The enables of a Ready port (10_state.md R23) -/

theorem ctrlb_of_ready {s : State} (hinv : Inv s) (hs : configuringAt s.stage = false) {p : Port}
    (hr : (s.unit p).ready = true) : (s.unit p).ctrlb = 0x18#8 := by
  obtain ⟨hports, -⟩ := (inv_iff s).mp hinv
  have hen := (hports p).enables
  rwa [hr, configuring_outside hs] at hen

theorem lineTxEnabled_of_ready {s : State} (hinv : Inv s) (hs : configuringAt s.stage = false) {p : Port}
    (hr : (s.unit p).ready = true) (hd : (s.unit p).dre = false) : lineTxEnabled p s = true := by
  rw [lineTxEnabled, PortState.txen, ctrlb_of_ready hinv hs hr, hd]
  rfl

theorem rxen_of_ready {s : State} (hinv : Inv s) (hs : configuringAt s.stage = false) {p : Port}
    (hr : (s.unit p).ready = true) : (s.unit p).rxen = true := by
  rw [PortState.rxen, ctrlb_of_ready hinv hs hr]
  rfl

theorem dre_lineTx_enabled {p : Port} {s : State} (h : lineTxEnabled p s = true) :
    ((lineTx p s).unit p).dre = true := by
  obtain ⟨c, cs, k, ht, -⟩ := lineTx_enabled h
  rw [ht, State.setDrawn_unit, State.unit_appendIn_ne _ _ (Port.ne_other p), State.unit_updUnit_same]

/-! ### An accepted `TRANSMIT` terminates (43_transmit_receive.md R112) -/

/-- The `TRANSMIT` of the latches of `s` is in progress at stage `x`, with `DRE` of its port at `d`. -/
structure Transmitting (s : State) (x : Stage) (d : Bool) (t : State) : Prop where
  inv       : Inv t
  stage     : t.stage = x
  port      : t.port = s.port
  txb       : t.txb = s.txb
  responses : t.responses = s.responses
  dre       : (t.unit s.port).dre = d

/-- The `TRANSMIT` of the latches of `s` is answered, and its byte waits to leave. -/
def Transmitted (s t : State) : Prop :=
  t.stage = .idle ∧ t.responses = s.responses ++ [.done] ∧ (t.unit s.port).txh = s.txb ∧
    (t.unit s.port).dre = false

theorem Transmitting.lineTxEnabled {s t : State} (h : Transmitting s .txPoll false t) :
    lineTxEnabled s.port t = true := by
  have hr := h.inv.inUse (.inl h.stage)
  rw [h.port] at hr
  exact lineTxEnabled_of_ready h.inv (by rw [h.stage]; rfl) hr h.dre

/-- No move but the sequencer's takes the command further, and none but that of `LineTx` changes `DRE`. -/
theorem Transmitting.waits {s t : State} {x : Stage} {d : Bool} (h : Transmitting s x d t) (hx : x ≠ .idle) {m : Turn}
    (hm : m ≠ .seq) (hr : m ≠ .reset) :
    ∃ u d', takeTurn m t = .next u ∧ Transmitting s x d' u ∧ (d' = d ∨ (d' = true ∧ m = .lineTx s.port)) := by
  obtain ⟨u, hu, k⟩ := agentKept_of_busy (h.stage ▸ hx) hm hr
  refine ⟨u, _, hu, ⟨takeTurn_keeps_inv h.inv hu, k.stage.trans h.stage, k.port.trans h.port, k.txb.trans h.txb,
    k.responses.trans h.responses, rfl⟩, ?_⟩
  obtain hd | hd | ⟨-, hseq, -⟩ := dre_of_takeTurn hr hu s.port
  · exact .inl (hd.trans h.dre)
  · exact .inr hd
  · exact absurd hseq hm

/-- While a byte waits to leave, the command polls, until `LineTx` takes that byte. -/
theorem Transmitting.poll_full {s t : State} (h : Transmitting s .txPoll false t) {m : Turn} (hr : m ≠ .reset) :
    ∃ u, takeTurn m t = .next u ∧
      (Transmitting s .txPoll true u ∨ (Transmitting s .txPoll false u ∧ m ≠ .lineTx s.port)) := by
  by_cases hm : m = .seq
  · subst hm
    have hu : takeTurn .seq t = .next (t.goto .txPoll) :=
      (seqTurn_txPoll h.stage).trans (by rw [h.port, h.dre]; rfl)
    exact ⟨_, hu, .inr ⟨⟨takeTurn_keeps_inv h.inv hu, rfl, h.port, h.txb, h.responses, h.dre⟩, nofun⟩⟩
  · obtain ⟨u, d, hu, htr, hd⟩ := h.waits nofun hm hr
    refine ⟨u, hu, ?_⟩
    cases d with
    | true => exact .inl htr
    | false =>
      refine .inr ⟨htr, fun hx => ?_⟩
      subst hx
      cases hu
      exact absurd htr.dre (by simp [dre_lineTx_enabled h.lineTxEnabled])

/-- With the holding register empty only the sequencer takes the command further. -/
theorem Transmitting.waits_empty {s t : State} {x : Stage} (h : Transmitting s x true t) (hx : x ≠ .idle) {m : Turn}
    (hm : m ≠ .seq) (hr : m ≠ .reset) : ∃ u, takeTurn m t = .next u ∧ Transmitting s x true u := by
  obtain ⟨u, d, hu, htr, rfl | ⟨rfl, -⟩⟩ := h.waits hx hm hr <;> exact ⟨u, hu, htr⟩

theorem Transmitting.poll_empty {s t : State} (h : Transmitting s .txPoll true t) {m : Turn} (hr : m ≠ .reset) :
    ∃ u, takeTurn m t = .next u ∧
      (Transmitting s .txWrite true u ∨ (Transmitting s .txPoll true u ∧ m ≠ .seq)) := by
  by_cases hm : m = .seq
  · subst hm
    have hu : takeTurn .seq t = .next (t.goto .txWrite) :=
      (seqTurn_txPoll h.stage).trans (by rw [h.port, h.dre]; rfl)
    exact ⟨_, hu, .inl ⟨takeTurn_keeps_inv h.inv hu, rfl, h.port, h.txb, h.responses, h.dre⟩⟩
  · obtain ⟨u, hu, htr⟩ := h.waits_empty nofun hm hr
    exact ⟨u, hu, .inr ⟨htr, hm⟩⟩

theorem Transmitting.write {s t : State} (h : Transmitting s .txWrite true t) {m : Turn} (hr : m ≠ .reset) :
    ∃ u, takeTurn m t = .next u ∧ (Transmitted s u ∨ (Transmitting s .txWrite true u ∧ m ≠ .seq)) := by
  by_cases hm : m = .seq
  · subst hm
    refine ⟨_, seqTurn_txWrite h.stage, .inl ⟨rfl, ?_, ?_⟩⟩
    · rw [State.respond_responses, State.updUnit_responses, h.responses]
    · rw [h.port, h.txb, State.respond_unit, State.unit_updUnit_same]
      exact ⟨rfl, rfl⟩
  · obtain ⟨u, hu, htr⟩ := h.waits_empty nofun hm hr
    exact ⟨u, hu, .inr ⟨htr, hm⟩⟩

/-- Settles O58: the byte before leaves by the fair `LineTx`, then the running sequencer polls and writes. -/
theorem fairTransmitTerminates : Obligations.FairTransmitTerminates := by
  intro s f hinv hs hruns hfair
  obtain ⟨hseq, hreset⟩ := hruns
  have hstart (d : Bool) (hd : (s.unit s.port).dre = d) : Reaches f s (Transmitting s .txPoll d) :=
    ⟨0, s, rfl, hinv, hs, rfl, rfl, rfl, hd⟩
  have hempty : Reaches f s (Transmitting s .txPoll true) := by
    cases hd : (s.unit s.port).dre with
    | true => exact hstart true hd
    | false =>
      exact (hstart false hd).leadsTo hreset (comesWhile_lineTx hfair fun t ht => ht.lineTxEnabled)
        fun m t hm ht => ht.poll_full hm
  have hwrite : Reaches f s (Transmitting s .txWrite true) :=
    hempty.leadsTo hreset (fun n _ => hseq n) fun m t hm ht => ht.poll_empty hm
  exact hwrite.leadsTo hreset (fun n _ => hseq n) fun m t hm ht => ht.write hm

end Sys2Proof.Proofs

/-! PROOFS. The loopback round trip (43_transmit_receive.md R113, R114): the phases it goes through, which every move
of every agent follows, and from them the byte answered and its coming under fairness. -/

namespace Sys2Proof.Proofs

open Sys2Proof.Machine Sys2Proof.Safety

/-! ### The configuration of a port outside `INIT` -/

/-- The two units agree in `READY` and in the configuration registers. -/
structure ConfigKept (u v : PortState) : Prop where
  ready : v.ready = u.ready
  ctrlb : v.ctrlb = u.ctrlb
  ctrlc : v.ctrlc = u.ctrlc
  baudh : v.baudh = u.baudh
  baudl : v.baudl = u.baudl

theorem ConfigKept.refl (u : PortState) : ConfigKept u u := ⟨rfl, rfl, rfl, rfl, rfl⟩

theorem ConfigKept.trans {u v w : PortState} (h : ConfigKept u v) (k : ConfigKept v w) : ConfigKept u w :=
  ⟨k.ready.trans h.ready, k.ctrlb.trans h.ctrlb, k.ctrlc.trans h.ctrlc, k.baudh.trans h.baudh,
    k.baudl.trans h.baudl⟩

theorem ConfigKept.effective {u v : PortState} (h : ConfigKept u v) : v.effective = u.effective :=
  effective_congr h.ctrlb h.ctrlc h.baudh h.baudl

theorem UnitKept.config {u v : PortState} (h : UnitKept u v) : ConfigKept u v :=
  ⟨h.ready, h.ctrlb, h.ctrlc, h.baudh, h.baudl⟩

/-- Outside `INIT` a sequencer step keeps the configuration of both ports. -/
theorem config_of_seqMove {s t : State} (m : SeqMove s t) (hs : initReg s.stage = none) (p : Port) :
    ConfigKept (s.unit p) (t.unit p) := by
  by_cases hp : p = s.port
  · subst hp
    cases m with
    | init1 h | init2 h | init3 h | init4 h | init5 h => simp [initReg, h] at hs
    | _ => constructor <;> simp
  · rw [unit_other_of_seqMove m hp]
    exact .refl _

/-- Outside `INIT` every move but a reset keeps the configuration of both ports. -/
theorem config_of_takeTurn {m : Turn} {s t : State} (h : takeTurn m s = .next t) (hm : m ≠ .reset)
    (hs : initReg s.stage = none) (p : Port) : ConfigKept (s.unit p) (t.unit p) := by
  cases m with
  | host => rw [unit_of_hostMove (hostTurn_next h)]; exact .refl _
  | seq => exact config_of_seqMove (seqTurn_next h) hs p
  | lineTx q => cases h; exact ((lineKept_lineTx q s).unit p).config
  | lineRx q => cases h; exact ((lineKept_lineRx q s).unit p).config
  | arrive q c => cases h; exact ((lineKept_arrive q c s).unit p).config
  | reset => exact absurd rfl hm

/-! ### Characters of 8 bits (43_transmit_receive.md R110) -/

theorem and_charMask_eight (c : Byte) : c &&& charMask 8 = c := BitVec.and_allOnes

theorem dataBits_of_effective {u : PortState} {e : Effective} (h : u.effective = some e) :
    u.dataBits = some e.dataBits := by
  unfold PortState.effective at h
  split at h
  · cases h
    assumption
  · cases h

/-- Two ports of the same format have the same character size (41_line_format.md R87). -/
theorem dataBits_eq_of_effective {u v : PortState} (hu : u.effective.isSome = true)
    (h : u.effective = v.effective) : v.dataBits = u.dataBits := by
  obtain ⟨e, he⟩ := Option.isSome_iff_exists.mp hu
  rw [dataBits_of_effective he, dataBits_of_effective (h.symm.trans he)]

/-! ### The phases of the round trip -/

/-- Where the byte is, once `TRANSMIT` is answered and before `RECEIVE` has read it. -/
inductive Place where
  /-- in the holding register of the sender -/
  | holding
  /-- among the arrivals of the receiver -/
  | line
  /-- in the holding register of the receiver -/
  | waiting

/-- How far the round trip is: the host's and the sequencer's side, and where the byte is where that is not fixed. -/
inductive Phase where
  | toSend
  | polling
  | writing
  | toReceive (l : Place)
  | awaiting (l : Place)
  | reading
  | answered

/-- `SEQ` without its port. -/
def Phase.stage : Phase → Stage
  | .toSend => .idle
  | .polling => .txPoll
  | .writing => .txWrite
  | .toReceive _ => .idle
  | .awaiting _ => .rxPoll
  | .reading => .rxRead
  | .answered => .idle

/-- The command in progress. -/
def Phase.running (p : Port) (b : Byte) : Phase → Option Instr
  | .toSend => none
  | .polling => some (.transmit p b)
  | .writing => some (.transmit p b)
  | .toReceive _ => none
  | .awaiting _ => some (.receive p.other)
  | .reading => some (.receive p.other)
  | .answered => none

/-- The commands still to come. -/
def Phase.cmds (p : Port) (b : Byte) : Phase → List CmdWord
  | .toSend => [encode (.transmit p b), encode (.receive p.other)]
  | .polling => [encode (.receive p.other)]
  | .writing => [encode (.receive p.other)]
  | .toReceive _ => [encode (.receive p.other)]
  | .awaiting _ => []
  | .reading => []
  | .answered => []

/-- The responses so far. -/
def Phase.responses (b : Byte) : Phase → List Response
  | .toSend => []
  | .polling => []
  | .writing => []
  | .toReceive _ => [.done]
  | .awaiting _ => [.done]
  | .reading => [.done]
  | .answered => [.done, .byte b]

/-- Where the byte is; none while it is not yet, or no longer, between the two ports. -/
def Phase.place : Phase → Option Place
  | .toSend => none
  | .polling => none
  | .writing => none
  | .toReceive l => some l
  | .awaiting l => some l
  | .reading => some .waiting
  | .answered => none

/-- What the place of byte `b` means for the sender's unit `u` and the receiver's unit `v`. -/
def Carried (b : Byte) (u v : PortState) : Option Place → Prop
  | none => u.dre = true ∧ v.rxc = false ∧ v.lineIn = []
  | some .holding => u.dre = false ∧ u.txh = b ∧ v.rxc = false ∧ v.lineIn = []
  | some .line => u.dre = true ∧ v.rxc = false ∧ v.lineIn = [b]
  | some .waiting => u.dre = true ∧ v.rxc = true ∧ v.rxh = b ∧ v.lineIn = []

/-- What the carrying of a byte depends on, of the sender. -/
def sendSide (u : PortState) : Bool × Byte := (u.dre, u.txh)

/-- What the carrying of a byte depends on, of the receiver. -/
def receiveSide (v : PortState) : Bool × Byte × List Byte := (v.rxc, v.rxh, v.lineIn)

theorem carried_congr {b : Byte} {u u' v v' : PortState} (hu : sendSide u' = sendSide u)
    (hv : receiveSide v' = receiveSide v) (o : Option Place) : Carried b u' v' o ↔ Carried b u v o := by
  simp only [sendSide, receiveSide, Prod.mk.injEq] at hu hv
  obtain ⟨hd, ht⟩ := hu
  obtain ⟨hc, hr, hl⟩ := hv
  unfold Carried
  rw [hd, ht, hc, hr, hl]

theorem receiveSide_lineTx_own (p : Port) (s : State) :
    receiveSide ((lineTx p s).unit p) = receiveSide (s.unit p) := by
  cases h : lineTxEnabled p s with
  | false => rw [lineTx_disabled h]
  | true =>
    obtain ⟨c, cs, k, ht, -⟩ := lineTx_enabled h
    rw [ht, State.setDrawn_unit, State.unit_appendIn_ne _ _ (Port.ne_other p), updUnit_keeps receiveSide p]

/-! The moves of the four agents, on the phases. -/

/-- The host hands its next command over. -/
def Phase.accepted : Phase → Phase
  | .toSend => .polling
  | .toReceive l => .awaiting l
  | x => x

/-- The sequencer takes the step of the command in progress. -/
def Phase.advanced : Phase → Phase
  | .polling => .writing
  | .writing => .toReceive .holding
  | .awaiting .waiting => .reading
  | .reading => .answered
  | x => x

/-- `LineTx` of the sender takes the byte. -/
def Place.sent : Place → Place
  | .holding => .line
  | l => l

/-- `LineRx` of the receiver deposits the byte. -/
def Place.received : Place → Place
  | .line => .waiting
  | l => l

/-- Unless the byte waits to leave the sender, `LineTx` there has no step and moves nothing. -/
theorem Carried.not_holding {b : Byte} {u v : PortState} {o : Option Place} (h : Carried b u v o)
    (ho : o ≠ some .holding) : u.dre = true ∧ o.map .sent = o := by
  cases o with
  | none => exact ⟨h.1, rfl⟩
  | some l =>
    cases l with
    | holding => exact absurd rfl ho
    | line => exact ⟨h.1, rfl⟩
    | waiting => exact ⟨h.1, rfl⟩

/-- Unless the byte is on the line, `LineRx` of the receiver has no step and moves nothing. -/
theorem Carried.not_line {b : Byte} {u v : PortState} {o : Option Place} (h : Carried b u v o)
    (ho : o ≠ some .line) : v.lineIn = [] ∧ o.map .received = o := by
  cases o with
  | none => obtain ⟨-, -, hl⟩ := h; exact ⟨hl, rfl⟩
  | some l =>
    cases l with
    | holding => obtain ⟨-, -, -, hl⟩ := h; exact ⟨hl, rfl⟩
    | line => exact absurd rfl ho
    | waiting => obtain ⟨-, -, -, hl⟩ := h; exact ⟨hl, rfl⟩

/-- The byte is moved by `g`, where its place is not fixed. -/
def Phase.mapPlace (g : Place → Place) : Phase → Phase
  | .toReceive l => .toReceive (g l)
  | .awaiting l => .awaiting (g l)
  | x => x

/-- The phase after the move `m`: the host's and the sequencer's moves, `LineTx` of the sender and `LineRx` of the
receiver lead on; no other move does. -/
def Phase.next (p : Port) : Turn → Phase → Phase
  | .host, x => x.accepted
  | .seq, x => x.advanced
  | .lineTx q, x => if q = p then x.mapPlace .sent else x
  | .lineRx q, x => if q = p.other then x.mapPlace .received else x
  | .arrive _ _, x => x
  | .reset, x => x

theorem Phase.place_mapPlace {g : Place → Place} (hg : g .waiting = .waiting) (x : Phase) :
    (x.mapPlace g).place = x.place.map g := by
  cases x with
  | reading => exact congrArg some hg.symm
  | _ => rfl

theorem Phase.mapPlace_id (x : Phase) : x.mapPlace id = x := by cases x <;> rfl

theorem Phase.initReg_stage (x : Phase) : initReg x.stage = none := by cases x <;> rfl

theorem Phase.configuringAt_stage (x : Phase) : configuringAt x.stage = false := by cases x <;> rfl

/-! ### The round trip -/

/-- The premises of R114 (43_transmit_receive.md), with the two commands to come. -/
structure RoundTripStart (s : State) (p : Port) (b : Byte) : Prop where
  inv        : Inv s
  stage      : s.stage = .idle
  loopback   : s.setup.wiring = .loopback
  ready      : (s.unit p).ready = true
  readyOther : (s.unit p.other).ready = true
  effective  : (s.unit p).effective.isSome = true
  sameFormat : (s.unit p).effective = (s.unit p.other).effective
  dataBits   : (s.unit p).dataBits = some 8
  dre        : (s.unit p).dre = true
  rxc        : (s.unit p.other).rxc = false
  lineIn     : (s.unit p.other).lineIn = []
  cmds       : s.cmds = [encode (.transmit p b), encode (.receive p.other)]

/-- The host's and the sequencer's side of the round trip from `s` at phase `x`. -/
structure AtPhase (s : State) (p : Port) (b : Byte) (x : Phase) (t : State) : Prop where
  stage     : t.stage = x.stage
  running   : t.running = x.running p b
  cmds      : t.cmds = x.cmds p b
  responses : t.responses = s.responses ++ x.responses b

/-- The round trip from `s` is at phase `x` in `t`. -/
structure Trip (s : State) (p : Port) (b : Byte) (x : Phase) (t : State) : Prop extends AtPhase s p b x t where
  inv     : Inv t
  setup   : t.setup = s.setup
  config  : ∀ q, ConfigKept (s.unit q) (t.unit q)
  carried : Carried b (t.unit p) (t.unit p.other) x.place

section
variable {s t : State} {p : Port} {b : Byte} {x y : Phase}

theorem RoundTripStart.trip (h : RoundTripStart s p b) : Trip s p b .toSend s where
  stage := h.stage
  running := by rw [State.running, h.stage]; rfl
  cmds := h.cmds
  responses := (List.append_nil _).symm
  inv := h.inv
  setup := rfl
  config _ := .refl _
  carried := ⟨h.dre, h.rxc, h.lineIn⟩

theorem running_of_agentKept (k : AgentKept s t) : t.running = s.running := by
  unfold State.running
  rw [k.stage, k.port, k.cfg, k.txb]

/-- A line-side move does not change the host's and the sequencer's side. -/
theorem AtPhase.of_agentKept {u : State} (h : AtPhase s p b x t) (k : AgentKept t u) (g : Place → Place) :
    AtPhase s p b (x.mapPlace g) u := by
  obtain ⟨hstage, hrun, hcmds, hresp⟩ := h
  rw [← k.stage] at hstage
  rw [← running_of_agentKept k] at hrun
  rw [← k.cmds] at hcmds
  rw [← k.responses] at hresp
  cases x <;> exact ⟨hstage, hrun, hcmds, hresp⟩

namespace Trip

/-- The round trip is at phase `y` after a move, if both sides of it are. -/
theorem of_takeTurn {m : Turn} {u : State} (h : Trip s p b x t) (hu : takeTurn m t = .next u) (hm : m ≠ .reset)
    (hat : AtPhase s p b y u) (hc : Carried b (u.unit p) (u.unit p.other) y.place) : Trip s p b y u where
  toAtPhase := hat
  inv := takeTurn_keeps_inv h.inv hu
  setup := (setup_of_takeTurn hu).trans h.setup
  config q := (h.config q).trans (config_of_takeTurn hu hm (by rw [h.stage, x.initReg_stage]) q)
  carried := hc

theorem useTurn (h : Trip s p b x t) : Trip s p b x t.useTurn where
  toAtPhase := x.mapPlace_id ▸ h.toAtPhase.of_agentKept (agentKept_useTurn t) id
  inv := inv_of_lineKept h.inv (lineKept_useTurn t)
  setup := t.setup_useTurn.trans h.setup
  config q := t.unit_useTurn q ▸ h.config q
  carried := by rw [t.unit_useTurn, t.unit_useTurn]; exact h.carried

/-! ### Every move follows the phases -/

theorem follows_host (h0 : RoundTripStart s p b) (h : Trip s p b x t) :
    ∃ u, hostTurn t = .next u ∧ Trip s p b x.accepted u := by
  have waits (hw : t.stage ≠ .idle ∨ t.cmds = []) : ∃ u, hostTurn t = .next u ∧ Trip s p b x u :=
    ⟨t, hostTurn_waits hw, h⟩
  cases x with
  | toSend =>
    have hu : takeTurn .host t = .next ((t.setCmds [encode (.receive p.other)]).latchTransmit p b) :=
      (hostTurn_hands h.stage h.cmds (decodeInvertsEncode _)).trans
        (exec_transmit_accepted (s := t.setCmds [encode (.receive p.other)]) h.stage
          ((h.config p).ready.trans h0.ready) b)
    exact ⟨_, hu, h.of_takeTurn hu nofun ⟨rfl, rfl, rfl, h.responses⟩ h.carried⟩
  | toReceive l =>
    have hu : takeTurn .host t = .next ((t.setCmds []).latchReceive p.other) :=
      (hostTurn_hands h.stage h.cmds (decodeInvertsEncode _)).trans
        (exec_receive_accepted (s := t.setCmds []) h.stage ((h.config p.other).ready.trans h0.readyOther))
    exact ⟨_, hu, h.of_takeTurn hu nofun ⟨rfl, rfl, rfl, h.responses⟩ h.carried⟩
  | polling => exact waits (.inl (by rw [h.stage]; nofun))
  | writing => exact waits (.inl (by rw [h.stage]; nofun))
  | awaiting l => exact waits (.inl (by rw [h.stage]; nofun))
  | reading => exact waits (.inl (by rw [h.stage]; nofun))
  | answered => exact waits (.inr h.cmds)

theorem follows_seq_awaiting {l : Place} (h : Trip s p b (.awaiting l) t) :
    ∃ u, seqTurn t = .next u ∧ Trip s p b (Phase.awaiting l).advanced u := by
  obtain ⟨hport, -⟩ := latches_of_running_receive h.running
  have hpoll := seqTurn_rxPoll h.stage
  rw [hport] at hpoll
  have hrun : some (Instr.receive t.port) = some (.receive p.other) := by rw [hport]
  have empty (hr : (t.unit p.other).rxc = false) : ∃ u, seqTurn t = .next u ∧ Trip s p b (.awaiting l) u := by
    have hu : takeTurn .seq t = .next (t.goto .rxPoll) := hpoll.trans (by rw [hr]; rfl)
    exact ⟨_, hu, h.of_takeTurn hu nofun ⟨rfl, hrun, h.cmds, h.responses⟩ h.carried⟩
  cases l with
  | holding =>
    obtain ⟨-, -, hr, -⟩ := h.carried
    exact empty hr
  | line =>
    obtain ⟨-, hr, -⟩ := h.carried
    exact empty hr
  | waiting =>
    obtain ⟨-, hr, -, -⟩ := h.carried
    have hu : takeTurn .seq t = .next (t.goto .rxRead) := hpoll.trans (by rw [hr]; rfl)
    exact ⟨_, hu, h.of_takeTurn hu nofun ⟨rfl, hrun, h.cmds, h.responses⟩ h.carried⟩

theorem follows_seq (h : Trip s p b x t) : ∃ u, seqTurn t = .next u ∧ Trip s p b x.advanced u := by
  cases x with
  | toSend => exact ⟨t, seqTurn_idle h.stage, h⟩
  | toReceive l => exact ⟨t, seqTurn_idle h.stage, h⟩
  | answered => exact ⟨t, seqTurn_idle h.stage, h⟩
  | awaiting l => exact h.follows_seq_awaiting
  | polling =>
    obtain ⟨rfl, rfl, -⟩ := latches_of_running_transmit h.running
    obtain ⟨hd, -, -⟩ := h.carried
    have hu : takeTurn .seq t = .next (t.goto .txWrite) := (seqTurn_txPoll h.stage).trans (by rw [hd]; rfl)
    exact ⟨_, hu, h.of_takeTurn hu nofun ⟨rfl, rfl, h.cmds, h.responses⟩ h.carried⟩
  | writing =>
    obtain ⟨rfl, rfl, -⟩ := latches_of_running_transmit h.running
    obtain ⟨-, hr, hl⟩ := h.carried
    have hu := seqTurn_txWrite h.stage
    refine ⟨_, hu, h.of_takeTurn (m := .seq) hu nofun ⟨rfl, rfl, h.cmds, ?_⟩ ?_⟩
    · rw [State.respond_responses, State.updUnit_responses, h.responses]
      exact List.append_assoc ..
    · simp [Carried, Phase.advanced, Phase.place, hr, hl]
  | reading =>
    obtain ⟨hport, -⟩ := latches_of_running_receive h.running
    obtain ⟨hd, -, rfl, hl⟩ := h.carried
    have hu := seqTurn_rxRead h.stage
    rw [hport] at hu
    refine ⟨_, hu, h.of_takeTurn (m := .seq) hu nofun ⟨rfl, rfl, h.cmds, ?_⟩ ?_⟩
    · rw [State.respond_responses, State.setRsp_responses, State.updUnit_responses, h.responses]
      exact List.append_assoc ..
    · simp [Carried, Phase.advanced, Phase.place, hd, hl]

/-- A line-side move may change no more than where the byte is. -/
theorem of_lineMove {m : Turn} {u : State} (h : Trip s p b x t) (hu : takeTurn m t = .next u) (hm : m ≠ .reset)
    (k : AgentKept t u) {g : Place → Place} (hg : g .waiting = .waiting)
    (hc : Carried b (u.unit p) (u.unit p.other) (x.place.map g)) : Trip s p b (x.mapPlace g) u :=
  h.of_takeTurn hu hm (h.toAtPhase.of_agentKept k g) (by rwa [Phase.place_mapPlace hg])

/-- A line-side move that leaves the sender's transmit side and the receiver's receive side leaves the byte where it
is. -/
theorem of_lineMove_elsewhere {m : Turn} {u : State} (h : Trip s p b x t) (hu : takeTurn m t = .next u)
    (hm : m ≠ .reset) (k : AgentKept t u) (hsend : sendSide (u.unit p) = sendSide (t.unit p))
    (hrecv : receiveSide (u.unit p.other) = receiveSide (t.unit p.other)) : Trip s p b x u := by
  have hc := (carried_congr hsend hrecv x.place).mpr h.carried
  exact x.mapPlace_id ▸ h.of_lineMove hu hm k (g := id) rfl (by rwa [Option.map_id])

theorem sender_enabled (h0 : RoundTripStart s p b) (h : Trip s p b x t) (hx : x.place = some .holding) :
    lineTxEnabled p t = true := by
  obtain ⟨hd, -⟩ : Carried b (t.unit p) (t.unit p.other) (some .holding) := hx ▸ h.carried
  exact lineTxEnabled_of_ready h.inv (by rw [h.stage, x.configuringAt_stage]) ((h.config p).ready.trans h0.ready) hd

theorem receiver_enabled (h0 : RoundTripStart s p b) (h : Trip s p b x t) : (t.unit p.other).rxen = true :=
  rxen_of_ready h.inv (by rw [h.stage, x.configuringAt_stage]) ((h.config p.other).ready.trans h0.readyOther)

/-- The sender's character is the byte itself: it has 8 data bits (R110). -/
theorem sender_dataBits (h0 : RoundTripStart s p b) (h : Trip s p b x t) : (t.unit p).dataBits = some 8 :=
  (dataBits_congr (h.config p).ctrlb (h.config p).ctrlc).trans h0.dataBits

/-- So is the receiver's, for its format is the same. -/
theorem receiver_dataBits (h0 : RoundTripStart s p b) (h : Trip s p b x t) : (t.unit p.other).dataBits = some 8 :=
  (dataBits_congr (h.config p.other).ctrlb (h.config p.other).ctrlc).trans
    ((dataBits_eq_of_effective h0.effective h0.sameFormat).trans h0.dataBits)

theorem formats_equal (h0 : RoundTripStart s p b) (h : Trip s p b x t) :
    sameFormat (t.unit p) (t.unit p.other) = true := by
  rw [sameFormat, (h.config p).effective, (h.config p.other).effective, ← h0.sameFormat]
  simp [h0.effective]

/-- `LineTx` of the sender puts the byte itself on the line (R110, R113). -/
theorem carried_lineTx (h0 : RoundTripStart s p b) (h : Trip s p b x t) :
    Carried b ((lineTx p t).unit p) ((lineTx p t).unit p.other) (x.place.map .sent) := by
  by_cases hx : x.place = some .holding
  · obtain ⟨c, cs, k, ht, -, hbits⟩ := lineTx_enabled (h.sender_enabled h0 hx)
    obtain ⟨hc, -, hsame⟩ := hbits 8 (h.sender_dataBits h0)
    obtain ⟨rfl, -⟩ := hsame (h.setup ▸ h0.loopback) (h.formats_equal h0)
    obtain ⟨-, rfl, hr, hl⟩ : Carried b (t.unit p) (t.unit p.other) (some .holding) := hx ▸ h.carried
    rw [and_charMask_eight] at hc
    simp [ht, hx, Carried, Place.sent, State.unit_appendIn_ne, hc, hr, hl]
  · obtain ⟨hd, hplace⟩ := h.carried.not_holding hx
    rw [lineTx_empty hd, hplace]
    exact h.carried

/-- `LineRx` of the receiver deposits the byte: the receiver is enabled and no byte waits (R108, R110). -/
theorem carried_lineRx (h0 : RoundTripStart s p b) (h : Trip s p b x t) :
    Carried b ((lineRx p.other t).unit p) ((lineRx p.other t).unit p.other) (x.place.map .received) := by
  by_cases hx : x.place = some .line
  · obtain ⟨hd, hr, hl⟩ : Carried b (t.unit p) (t.unit p.other) (some .line) := hx ▸ h.carried
    obtain ⟨v, k, ht, hbits⟩ := lineRx_deposit hl (h.receiver_enabled h0) hr
    obtain ⟨hv, -⟩ := hbits 8 (h.receiver_dataBits h0)
    rw [and_charMask_eight] at hv
    simp [ht, hx, Carried, Place.received, hv, hd]
  · obtain ⟨hl, hplace⟩ := h.carried.not_line hx
    rw [lineRx_nil hl, hplace]
    exact h.carried

theorem follows_lineTx (h0 : RoundTripStart s p b) (h : Trip s p b x t) (q : Port) :
    Trip s p b (x.next p (.lineTx q)) (lineTx q t) := by
  by_cases hq : q = p
  · subst hq
    rw [Phase.next, if_pos rfl]
    exact h.of_lineMove (m := .lineTx q) rfl nofun (agentKept_lineTx q t) rfl (h.carried_lineTx h0)
  · rw [Phase.next, if_neg hq]
    refine h.of_lineMove_elsewhere (m := .lineTx q) rfl nofun (agentKept_lineTx q t) ?_ ?_
    · obtain ⟨cs, hu, -⟩ := unit_lineTx_other p t
      rw [Port.eq_other_of_ne hq, hu]
      rfl
    · rw [Port.eq_other_of_ne hq]
      exact receiveSide_lineTx_own p.other t

theorem follows_lineRx (h0 : RoundTripStart s p b) (h : Trip s p b x t) (q : Port) :
    Trip s p b (x.next p (.lineRx q)) (lineRx q t) := by
  by_cases hq : q = p.other
  · subst hq
    rw [Phase.next, if_pos rfl]
    exact h.of_lineMove (m := .lineRx p.other) rfl nofun (agentKept_lineRx p.other t) rfl (h.carried_lineRx h0)
  · rw [Phase.next, if_neg hq]
    refine h.of_lineMove_elsewhere (m := .lineRx q) rfl nofun (agentKept_lineRx q t) ?_ ?_
    · obtain ⟨l, v, r, k, ht⟩ := lineRx_frame q t
      rw [ht, State.setDrawn_unit, updUnit_keeps sendSide p]
    · obtain ⟨l, v, r, k, ht⟩ := lineRx_frame q t
      rw [ht, State.setDrawn_unit, State.unit_updUnit_ne _ _ (Ne.symm hq)]

/-- Every move but a reset is a move of the round trip, which it follows phase by phase. -/
theorem follows_takeTurn (h0 : RoundTripStart s p b) (h : Trip s p b x t) {m : Turn} (hm : m ≠ .reset) :
    ∃ u, takeTurn m t = .next u ∧ Trip s p b (x.next p m) u := by
  cases m with
  | host => exact h.follows_host h0
  | seq => exact h.follows_seq
  | lineTx q => exact ⟨_, rfl, h.follows_lineTx h0 q⟩
  | lineRx q => exact ⟨_, rfl, h.follows_lineRx h0 q⟩
  | arrive q c => exact ⟨t, congrArg _ (arrive_loopback (h.setup ▸ h0.loopback) q c), h⟩
  | reset => exact absurd rfl hm

end Trip
end

/-! ### The byte answered (43_transmit_receive.md R114, first half) -/

/-- A reset met the round trip from `s` at phase `x`: neither port is Ready, and the commands left are no `INIT`. -/
structure Abandoned (s : State) (p : Port) (b : Byte) (x : Phase) (t : State) : Prop where
  stage     : t.stage = .idle
  ready     : ∀ q, (t.unit q).ready = false
  cmds      : t.cmds = x.cmds p b
  responses : t.responses = s.responses ++ x.responses b

/-- The commands of the round trip are transfers. -/
theorem Phase.decode_ne_init {p q : Port} {b : Byte} {x : Phase} {w : CmdWord} {c : PortConfig}
    (hw : w ∈ x.cmds p b) : decode w ≠ .ok (.init q c) := by
  have hcmds : w ∈ [encode (.transmit p b), encode (.receive p.other)] := by
    cases x <;> simp_all [Phase.cmds]
  intro hd
  obtain rfl | rfl : w = encode (.transmit p b) ∨ w = encode (.receive p.other) := by simpa using hcmds
  · cases (decodeInvertsEncode _).symm.trans hd
  · cases (decodeInvertsEncode _).symm.trans hd

namespace Abandoned
variable {s t u : State} {p : Port} {b : Byte} {x : Phase}

theorem of_agentKept (h : Abandoned s p b x t) (k : AgentKept t u) : Abandoned s p b x u :=
  ⟨k.stage.trans h.stage, fun q => (k.unit q).ready.trans (h.ready q), k.cmds.trans h.cmds,
    k.responses.trans h.responses⟩

/-- No command is accepted any more: each faults on its Uninitialized port (R106). -/
theorem of_hostMove (h : Abandoned s p b x t) (m : HostMove t u) : Abandoned s p b x u := by
  cases m with
  | waits => exact h
  | init _ hc hd => exact absurd hd (Phase.decode_ne_init (by rw [← h.cmds, hc]; exact List.mem_cons_self))
  | @transmit _ _ q _ _ _ _ hr => simp [h.ready q] at hr
  | @receive _ _ q _ _ _ hr => simp [h.ready q] at hr

theorem of_takeTurn (h : Abandoned s p b x t) {m : Turn} (hu : takeTurn m t = .next u) : Abandoned s p b x u := by
  cases m with
  | host => exact h.of_hostMove (hostTurn_next hu)
  | seq => cases (seqTurn_idle h.stage).symm.trans hu; exact h
  | lineTx q => cases hu; exact h.of_agentKept (agentKept_lineTx q t)
  | lineRx q => cases hu; exact h.of_agentKept (agentKept_lineRx q t)
  | arrive q c => cases hu; exact h.of_agentKept (agentKept_arrive q c t)
  | reset => cases hu; exact ⟨rfl, t.blockReset_ready, h.cmds, h.responses⟩

end Abandoned

/-- What holds all along a run from the start of a round trip: it is at some phase, or a reset met it there. -/
def TripOrAbandoned (s : State) (p : Port) (b : Byte) (t : State) : Prop :=
  ∃ x, Trip s p b x t ∨ Abandoned s p b x t

theorem TripOrAbandoned.of_takeTurn {s t u : State} {p : Port} {b : Byte} (h0 : RoundTripStart s p b)
    (h : TripOrAbandoned s p b t) {m : Turn} (hu : takeTurn m t = .next u) : TripOrAbandoned s p b u := by
  obtain ⟨x, h | h⟩ := h
  · by_cases hm : m = .reset
    · subst hm
      cases hu
      exact ⟨x, .inr ⟨rfl, t.blockReset_ready, h.cmds, h.responses⟩⟩
    · obtain ⟨v, hv, htrip⟩ := h.follows_takeTurn h0 hm
      cases hv.symm.trans hu
      exact ⟨_, .inl htrip⟩
  · exact ⟨x, .inr (h.of_takeTurn hu)⟩

theorem TripOrAbandoned.of_step {s t u : State} {p : Port} {b : Byte} (h0 : RoundTripStart s p b)
    (h : TripOrAbandoned s p b t) (hu : step t = .next u) : TripOrAbandoned s p b u := by
  have huse : TripOrAbandoned s p b t.useTurn :=
    h.imp fun x hx => hx.imp Trip.useTurn fun ha => ha.of_agentKept (agentKept_useTurn t)
  exact huse.of_takeTurn h0 (step_next hu).2

/-- A run that answers a state begins with a step that does. -/
theorem step_of_run {M : Host.Core} {n : Nat} {s t : M.State} (h : M.run (n + 1) s = .next t) :
    ∃ u, M.step s = .next u ∧ M.run n u = .next t := by
  unfold Host.Core.run at h
  split at h
  · exact ⟨_, ‹_›, h⟩
  · cases h
  · cases h

/-- What every step keeps holds after a run of any length. -/
theorem run_keeps {P : State → Prop} (hstep : ∀ s t, P s → step s = .next t → P t) (n : Nat) {s t : State} (hs : P s)
    (h : Host.Core.run core n s = .next t) : P t := by
  induction n generalizing s with
  | zero => cases h; exact hs
  | succ n ih =>
    obtain ⟨u, hu, hrun⟩ := step_of_run h
    exact ih (hstep s u hs hu) hrun

/-- Only the answered phase has two responses, and the second carries the byte. -/
theorem Phase.eq_of_responses {b v : Byte} {x : Phase} (h : x.responses b = [.done, .byte v]) : v = b := by
  cases x with
  | answered =>
    obtain rfl : b = v := by simpa [Phase.responses] using h
    rfl
  | _ => simp [Phase.responses] at h

/-- Settles O59: every step keeps the round trip at a phase, or abandoned at one, and the responses are the phase's. -/
theorem loopbackRoundTrip : Obligations.LoopbackRoundTrip := by
  intro s t p b v n hinv hs hloop hr hr' heff hsame hbits hd hc hl hcmds hrun hresp
  have h0 : RoundTripStart s p b := ⟨hinv, hs, hloop, hr, hr', heff, hsame, hbits, hd, hc, hl, hcmds⟩
  obtain ⟨x, hx⟩ := run_keeps (fun _ _ => TripOrAbandoned.of_step h0) n ⟨.toSend, .inl h0.trip⟩ hrun
  have hphase : t.responses = s.responses ++ x.responses b := hx.elim (·.responses) (·.responses)
  exact Phase.eq_of_responses (List.append_cancel_left (hphase.symm.trans hresp))

/-! ### The round trip completes under fairness (43_transmit_receive.md R114, second half) -/

/-- The round trip from `s` is at one of the phases `S`. -/
def InPhase (s : State) (p : Port) (b : Byte) (S : Phase → Prop) (t : State) : Prop := ∃ x, S x ∧ Trip s p b x t

/-- The byte is at place `l`, and the host has handed the `RECEIVE` over or not yet. -/
def Phase.Carrying (l : Place) (x : Phase) : Prop := x = .toReceive l ∨ x = .awaiting l

section
variable {p : Port} {l : Place} {x : Phase}

theorem Phase.Carrying.accepted (h : x.Carrying l) : x.accepted.Carrying l := by
  obtain rfl | rfl := h <;> exact .inr rfl

/-- The poll of `RECEIVE` goes on when a byte waits only (R104). -/
theorem Phase.Carrying.advanced (h : x.Carrying l) (hl : l ≠ .waiting) : x.advanced.Carrying l := by
  obtain rfl | rfl := h
  · exact .inl rfl
  · cases l with
    | waiting => exact absurd rfl hl
    | _ => exact .inr rfl

theorem Phase.Carrying.mapPlace (h : x.Carrying l) (g : Place → Place) : (x.mapPlace g).Carrying (g l) :=
  h.imp (congrArg (Phase.mapPlace g)) (congrArg (Phase.mapPlace g))

/-- A byte that does not wait yet is moved by `LineTx` of the sender and `LineRx` of the receiver alone. -/
theorem Phase.Carrying.next (h : x.Carrying l) (hl : l ≠ .waiting) (m : Turn) :
    (m = .lineTx p ∧ (x.next p m).Carrying l.sent) ∨ (m = .lineRx p.other ∧ (x.next p m).Carrying l.received) ∨
      (m ≠ .lineTx p ∧ m ≠ .lineRx p.other ∧ (x.next p m).Carrying l) := by
  cases m with
  | host => exact .inr (.inr ⟨nofun, nofun, h.accepted⟩)
  | seq => exact .inr (.inr ⟨nofun, nofun, h.advanced hl⟩)
  | lineTx q =>
    by_cases hq : q = p
    · exact .inl ⟨by rw [hq], by rw [Phase.next, if_pos hq]; exact h.mapPlace .sent⟩
    · exact .inr (.inr ⟨by simpa using hq, nofun, by rwa [Phase.next, if_neg hq]⟩)
  | lineRx q =>
    by_cases hq : q = p.other
    · exact .inr (.inl ⟨by rw [hq], by rw [Phase.next, if_pos hq]; exact h.mapPlace .received⟩)
    · exact .inr (.inr ⟨nofun, by simpa using hq, by rwa [Phase.next, if_neg hq]⟩)
  | arrive q c => exact .inr (.inr ⟨nofun, nofun, h⟩)
  | reset => exact .inr (.inr ⟨nofun, nofun, h⟩)

theorem Phase.Carrying.holding_next (h : x.Carrying .holding) (m : Turn) :
    (x.next p m).Carrying .line ∨ ((x.next p m).Carrying .holding ∧ m ≠ .lineTx p) := by
  obtain ⟨-, hn⟩ | ⟨rfl, hn⟩ | ⟨hm, -, hn⟩ := h.next (p := p) nofun m
  · exact .inl hn
  · exact .inr ⟨hn, nofun⟩
  · exact .inr ⟨hn, hm⟩

theorem Phase.Carrying.line_next (h : x.Carrying .line) (m : Turn) :
    (x.next p m).Carrying .waiting ∨ ((x.next p m).Carrying .line ∧ m ≠ .lineRx p.other) := by
  obtain ⟨rfl, hn⟩ | ⟨-, hn⟩ | ⟨-, hm, hn⟩ := h.next (p := p) nofun m
  · exact .inr ⟨hn, nofun⟩
  · exact .inl hn
  · exact .inr ⟨hn, hm⟩

/-- A phase in which the byte's place is fixed: no line-side move leads on. -/
def Phase.Still (x : Phase) : Prop := x.mapPlace .sent = x ∧ x.mapPlace .received = x

/-- A phase that neither the sequencer nor a line-side agent ends is ended by the host. -/
theorem Phase.Still.next_by_host (h : x.Still) (hs : x.advanced = x) (m : Turn) :
    x.next p m = x.accepted ∨ (x.next p m = x ∧ m ≠ .host) := by
  obtain ⟨hsent, hrecv⟩ := h
  cases m with
  | host => exact .inl rfl
  | seq => exact .inr ⟨hs, nofun⟩
  | lineTx q => exact .inr ⟨by rw [Phase.next, hsent, ite_self], nofun⟩
  | lineRx q => exact .inr ⟨by rw [Phase.next, hrecv, ite_self], nofun⟩
  | arrive q c => exact .inr ⟨rfl, nofun⟩
  | reset => exact .inr ⟨rfl, nofun⟩

/-- A phase that neither the host nor a line-side agent ends is ended by the sequencer. -/
theorem Phase.Still.next_by_seq (h : x.Still) (ha : x.accepted = x) (m : Turn) :
    x.next p m = x.advanced ∨ (x.next p m = x ∧ m ≠ .seq) := by
  obtain ⟨hsent, hrecv⟩ := h
  cases m with
  | host => exact .inr ⟨ha, nofun⟩
  | seq => exact .inl rfl
  | lineTx q => exact .inr ⟨by rw [Phase.next, hsent, ite_self], nofun⟩
  | lineRx q => exact .inr ⟨by rw [Phase.next, hrecv, ite_self], nofun⟩
  | arrive q c => exact .inr ⟨rfl, nofun⟩
  | reset => exact .inr ⟨rfl, nofun⟩

end

section
variable {s : State} {p : Port} {b : Byte} {f : Nat → Turn} {x : Phase}

/-- The rule of progress, on the phases. -/
theorem reaches_inPhase (h0 : RoundTripStart s p b) (hreset : ∀ n, f n ≠ .reset) {S S' : Phase → Prop} {m : Turn}
    (hS : Reaches f s (InPhase s p b S)) (hcomes : ComesWhile f s m (InPhase s p b S))
    (hnext : ∀ m' x, S x → S' (x.next p m') ∨ (S (x.next p m') ∧ m' ≠ m)) : Reaches f s (InPhase s p b S') :=
  hS.leadsTo hreset hcomes fun m' _ hm ⟨x, hx, htrip⟩ => by
    obtain ⟨u, hu, hnew⟩ := htrip.follows_takeTurn h0 hm
    exact ⟨u, hu, (hnext m' x hx).imp (fun h => ⟨_, h, hnew⟩) fun ⟨h, hne⟩ => ⟨⟨_, h, hnew⟩, hne⟩⟩

theorem reaches_accepted (h0 : RoundTripStart s p b) (hreset : ∀ n, f n ≠ .reset) (hhost : HostRuns f)
    (hx : Reaches f s (InPhase s p b (· = x))) (hstill : x.Still) (hs : x.advanced = x) :
    Reaches f s (InPhase s p b (· = x.accepted)) :=
  reaches_inPhase h0 hreset hx (fun n _ => hhost n) fun m _ hy => by
    subst hy
    exact hstill.next_by_host hs m

theorem reaches_advanced (h0 : RoundTripStart s p b) (hruns : SequencerRuns f)
    (hx : Reaches f s (InPhase s p b (· = x))) (hstill : x.Still) (ha : x.accepted = x) :
    Reaches f s (InPhase s p b (· = x.advanced)) :=
  reaches_inPhase h0 hruns.2 hx (fun n _ => hruns.1 n) fun m _ hy => by
    subst hy
    exact hstill.next_by_seq ha m

/-- The byte leaves the sender: `LineTx` has a step as long as it waits there. -/
theorem reaches_line (h0 : RoundTripStart s p b) (hreset : ∀ n, f n ≠ .reset) (hfair : FairLineTx f s p)
    (hx : Reaches f s (InPhase s p b (Phase.Carrying .holding))) :
    Reaches f s (InPhase s p b (Phase.Carrying .line)) := by
  refine reaches_inPhase h0 hreset hx (comesWhile_lineTx hfair ?_) fun m _ hy => hy.holding_next m
  rintro t ⟨x, rfl | rfl, htrip⟩ <;> exact htrip.sender_enabled h0 rfl

/-- The byte comes to the receiver: `LineRx` has a step as long as it is on the line. -/
theorem reaches_waiting (h0 : RoundTripStart s p b) (hreset : ∀ n, f n ≠ .reset) (hfair : FairLineRx f s p.other)
    (hx : Reaches f s (InPhase s p b (Phase.Carrying .line))) :
    Reaches f s (InPhase s p b (Phase.Carrying .waiting)) := by
  refine reaches_inPhase h0 hreset hx (comesWhile_lineRx hfair ?_) fun m _ hy => hy.line_next m
  have arriving {x : Phase} {t : State} (htrip : Trip s p b x t) (hx : x.place = some .line) :
      (t.unit p.other).lineIn ≠ [] := by
    obtain ⟨-, -, hl⟩ : Carried b (t.unit p) (t.unit p.other) (some .line) := hx ▸ htrip.carried
    rw [hl]
    nofun
  rintro t ⟨x, rfl | rfl, htrip⟩ <;> exact arriving htrip rfl

/-- With the byte waiting at the receiver the `RECEIVE` is handed over, if it was not before. -/
theorem reaches_awaiting (h0 : RoundTripStart s p b) (hreset : ∀ n, f n ≠ .reset) (hhost : HostRuns f)
    (hx : Reaches f s (InPhase s p b (Phase.Carrying .waiting))) :
    Reaches f s (InPhase s p b (· = .awaiting .waiting)) := by
  obtain ⟨n, t, hn, x, rfl | rfl, htrip⟩ := hx
  · exact reaches_accepted h0 hreset hhost ⟨n, t, hn, _, rfl, htrip⟩ ⟨rfl, rfl⟩ rfl
  · exact ⟨n, t, hn, _, rfl, htrip⟩

end

/-- Settles O60: the phases from the first to the answered one, each ended by the agent whose turn keeps coming. -/
theorem fairLoopbackRoundTripCompletes : Obligations.FairLoopbackRoundTripCompletes := by
  intro s p b f hinv hs hloop hr hr' heff hsame hbits hd hc hl hcmds hhost hruns hfairTx hfairRx
  have h0 : RoundTripStart s p b := ⟨hinv, hs, hloop, hr, hr', heff, hsame, hbits, hd, hc, hl, hcmds⟩
  have hreset := hruns.2
  have hstart : Reaches f s (InPhase s p b (· = .toSend)) := ⟨0, s, rfl, _, rfl, h0.trip⟩
  have hpolling := reaches_accepted h0 hreset hhost hstart ⟨rfl, rfl⟩ rfl
  have hwriting := reaches_advanced h0 hruns hpolling ⟨rfl, rfl⟩ rfl
  have hholding : Reaches f s (InPhase s p b (Phase.Carrying .holding)) :=
    reaches_inPhase h0 hreset hwriting (fun n _ => hruns.1 n) fun m _ hy => by
      subst hy
      exact (Phase.Still.next_by_seq ⟨rfl, rfl⟩ rfl m).imp_left .inl
  have hwaiting := reaches_waiting h0 hreset hfairRx (reaches_line h0 hreset hfairTx hholding)
  have hreading := reaches_advanced h0 hruns (reaches_awaiting h0 hreset hhost hwaiting) ⟨rfl, rfl⟩ rfl
  obtain ⟨n, t, hn, _, rfl, htrip⟩ := reaches_advanced h0 hruns hreading ⟨rfl, rfl⟩ rfl
  exact ⟨n, t, hn, htrip.responses⟩

end Sys2Proof.Proofs

/-! PROOFS. Exceptions (60_exceptions.md): the two causes of a fault and the move that meets them (R124, R127), what a
fault leaves of the run (R124, R128), the refusal of an overlapping command (R132), and the poll that never ends (R122). -/

namespace Sys2Proof.Proofs

open Sys2Proof.Machine Sys2Proof.Safety

/-! ### A command handed over (60_exceptions.md R132, 30_encoding.md R64) -/

theorem commandStep_busy {i j : Instr} {s : State} (h : s.running = some j) (hij : i ≠ j) (f g : State → Result) :
    commandStep i s f g = .refused .commandInProgress := by
  simp [commandStep, stage_ne_idle_of_running h, h, hij.symm]

/-- Settles O35: each of the three commands goes through `commandStep`. -/
theorem overlappingCommandRefused : Obligations.OverlappingCommandRefused := by
  intro s i j hr hij
  cases i with
  | init p c => simp only [exec, execInit, commandStep_busy hr hij]
  | transmit p b => simp only [exec, execTransmit, commandStep_busy hr hij]
  | receive p => simp only [exec, execReceive, commandStep_busy hr hij]

/-- Settles O36, from what the host's turn does with a word of either kind. -/
theorem stepRunsDecodedCommand : Obligations.StepRunsDecodedCommand := by
  intro s ms w ws hf hm hs hc
  have hstep : step s = hostTurn (s.setTurns ms) := by
    rw [step_eq_takeTurn hf, nextTurn_cons hm, useTurn_cons hm]
    rfl
  exact ⟨fun i hd => hstep.trans (hostTurn_hands hs hc hd), fun e hd => hstep.trans (hostTurn_reserved hs hc hd)⟩

/-! ### What faults (60_exceptions.md R123, R124, R127) -/

theorem requireReady_fault_iff {p : Port} {s : State} {g : State → State} {f : Fault} :
    requireReady p s (fun u => .next (g u)) = .fault f ↔ f = .uninitializedUse p ∧ (s.unit p).ready = false := by
  cases hr : (s.unit p).ready with
  | true => simp [requireReady_ready hr]
  | false => simp [requireReady_uninitialized hr, eq_comm]

/-- At `Idle` a command faults exactly if it is a transfer on an Uninitialized port (43_transmit_receive.md R106). -/
theorem exec_idle_fault_iff {i : Instr} {s : State} (hs : s.stage = .idle) {f : Fault} : exec i s = .fault f ↔
    ∃ p, f = .uninitializedUse p ∧ (s.unit p).ready = false ∧ ((∃ b, i = .transmit p b) ∨ i = .receive p) := by
  cases i with
  | init p c => simp [exec_init_idle hs]
  | transmit p b => simp [exec_transmit_idle hs, requireReady_fault_iff]
  | receive p => simp [exec_receive_idle hs, requireReady_fault_iff]

/-- The host's turn faults exactly at the handing over of a reserved word or of such a transfer. -/
theorem hostTurn_fault_iff {s : State} {f : Fault} : hostTurn s = .fault f ↔
    s.stage = .idle ∧ ∃ w ws, s.cmds = w :: ws ∧
      ((f = .reservedCommand w ∧ ∀ i, decode w ≠ .ok i) ∨
       (∃ p, f = .uninitializedUse p ∧ (s.unit p).ready = false ∧
         ((∃ b, decode w = .ok (.transmit p b)) ∨ decode w = .ok (.receive p)))) := by
  by_cases hw : s.stage ≠ .idle ∨ s.cmds = []
  · rw [hostTurn_waits hw]
    rcases hw with hw | hw <;> simp [hw]
  · obtain ⟨hs, hc⟩ : s.stage = .idle ∧ s.cmds ≠ [] := by simpa using hw
    obtain ⟨w, ws, hcons⟩ := List.exists_cons_of_ne_nil hc
    cases hd : decode w with
    | error e =>
      rw [hostTurn_reserved hs hcons hd]
      simp [hs, hcons, hd, eq_comm (a := f)]
    | ok i =>
      rw [hostTurn_hands hs hcons hd, exec_idle_fault_iff (by exact hs)]
      simp [hs, hcons, hd]

/-- No agent but the host meets a fault. -/
theorem takeTurn_fault_iff {m : Turn} {s : State} {f : Fault} :
    takeTurn m s = .fault f ↔ m = .host ∧ hostTurn s = .fault f := by
  cases m with
  | host => simp [takeTurn]
  | seq =>
    obtain ⟨t, ht, -⟩ := seqTurn_spec s
    simp [takeTurn, ht]
  | _ => simp [takeTurn]

theorem step_fault_iff {s : State} {f : Fault} :
    step s = .fault f ↔ s.faulted = false ∧ s.nextTurn = .host ∧ hostTurn s.useTurn = .fault f := by
  cases hf : s.faulted with
  | false => rw [step_eq_takeTurn hf, takeTurn_fault_iff]; simp
  | true =>
    by_cases hn : s.nextTurn = .reset
    · simp [step_reset hn]
    · simp [step_runFaulted hf hn]

/-- Settles O45: the host's turn, with the turn used up, faults for the two causes of R124. -/
theorem faultsExactlyAtAcceptance : Obligations.FaultsExactlyAtAcceptance := by
  intro s f
  rw [step_fault_iff, hostTurn_fault_iff]
  simp only [State.stage_useTurn, State.cmds_useTurn, State.unit_useTurn]

/-! ### What a fault leaves (60_exceptions.md R124, R128; 70_reset_and_hazards.md R140) -/

theorem faulted_of_hostMove {s t : State} (m : HostMove s t) : t.faulted = s.faulted := by cases m <;> rfl

theorem faulted_of_seqMove {s t : State} (m : SeqMove s t) : t.faulted = s.faulted := by
  have hdiv (half : DivWord → Byte) : (divisorByte half s).2.faulted = s.faulted := by
    obtain ⟨v, n, h, -⟩ := divisorByte_spec half s
    rw [h]
    rfl
  cases m with
  | init2 => exact hdiv hiByte
  | init3 => exact hdiv loByte
  | _ => rfl

theorem faulted_lineTx (p : Port) (s : State) : (lineTx p s).faulted = s.faulted := by
  cases h : lineTxEnabled p s with
  | false => rw [lineTx_disabled h]
  | true =>
    obtain ⟨c, cs, k, ht, -⟩ := lineTx_enabled h
    rw [ht]
    rfl

theorem faulted_lineRx (p : Port) (s : State) : (lineRx p s).faulted = s.faulted := by
  obtain ⟨l, v, r, k, h⟩ := lineRx_frame p s
  rw [h]
  rfl

theorem faulted_arrive (p : Port) (c : Byte) (s : State) : (arrive p c s).faulted = s.faulted := by
  obtain ⟨l, h⟩ := arrive_frame p c s
  rw [h]
  rfl

/-- No move sets the mark `FAULTED`, and a reset clears it (10_state.md R28). -/
theorem faulted_of_takeTurn {m : Turn} {s t : State} (h : takeTurn m s = .next t) :
    (m ≠ .reset ∧ t.faulted = s.faulted) ∨ (m = .reset ∧ t.faulted = false) := by
  cases m with
  | host => exact .inl ⟨nofun, faulted_of_hostMove (hostTurn_next h)⟩
  | seq => exact .inl ⟨nofun, faulted_of_seqMove (seqTurn_next h)⟩
  | lineTx p => cases h; exact .inl ⟨nofun, faulted_lineTx p s⟩
  | lineRx p => cases h; exact .inl ⟨nofun, faulted_lineRx p s⟩
  | arrive p c => cases h; exact .inl ⟨nofun, faulted_arrive p c s⟩
  | reset => cases h; exact .inr ⟨rfl, rfl⟩

/-- No next state is marked: a marked run has no step but a reset, and no step sets the mark. -/
theorem faulted_of_step {s t : State} (h : step s = .next t) : t.faulted = false := by
  obtain ⟨hs, ht⟩ := step_next h
  obtain ⟨hm, hf⟩ | ⟨-, hf⟩ := faulted_of_takeTurn ht
  · exact hf.trans (s.faulted_useTurn.trans (hs.resolve_right hm))
  · exact hf

theorem afterStep_next {s t : State} (h : step s = .next t) : afterStep s = t := by simp [afterStep, h]

theorem afterStep_fault {s : State} {f : Fault} (h : step s = .fault f) : afterStep s = s.markFaulted := by
  simp [afterStep, h]

theorem afterStep_refused {s : State} {r : Refusal} (h : step s = .refused r) : afterStep s = s := by
  simp [afterStep, h]

/-- Settles O46, from the three outcomes of a step and the mark after each. -/
theorem faultOnlyMarksTheRun : Obligations.FaultOnlyMarksTheRun := by
  refine ⟨fun s f h => afterStep_fault h, fun s hf hn => ?_, fun s _ hn => ?_, fun s t h => faulted_of_step h⟩
  · have hstep := step_runFaulted hf hn
    exact ⟨hstep, afterStep_refused hstep⟩
  · have hstep := step_reset hn
    exact ⟨hstep, by rw [afterStep_next hstep]; rfl⟩

/-! ### A poll that never ends (60_exceptions.md R122, 43_transmit_receive.md R112, R117) -/

/-- If every move but a reset, and but a step of the agent of turn `m`, keeps `P`, then `P` holds after any run of such
moves. -/
theorem runTurns_of_takesNoStep {m : Turn} {hasStep P : State → Prop}
    (hkeep : ∀ x t, x ≠ .reset → (x = m → ¬ hasStep t) → P t → ∃ u, takeTurn x t = .next u ∧ P u) {ms : List Turn}
    {s : State} (hreset : ∀ x ∈ ms, x ≠ .reset) (hno : TakesNoStep m hasStep ms s) (hs : P s) :
    ∃ t, runTurns ms s = .next t ∧ P t := by
  induction ms generalizing s with
  | nil => exact ⟨s, rfl, hs⟩
  | cons x ms ih =>
    obtain ⟨hx, hrest⟩ := takesNoStep_cons.mp hno
    obtain ⟨u, hu, hP⟩ := hkeep x s (hreset x List.mem_cons_self) hx hs
    rw [runTurns_cons hu]
    exact ih (fun y hy => hreset y (List.mem_cons_of_mem x hy)) (hrest u hu) hP

/-- The command in progress in `s` is still where it was, unanswered, the host's commands are all there, and the flag
its poll tests is clear. -/
structure Blocked (flag : PortState → Bool) (s t : State) : Prop where
  stage     : t.stage = s.stage
  port      : t.port = s.port
  responses : t.responses = s.responses
  cmds      : t.cmds = s.cmds
  clear     : flag (t.unit s.port) = false

theorem Blocked.seq {flag : PortState → Bool} {s t : State} (h : Blocked flag s t) : t.seq = s.seq := by
  simp only [State.seq, h.stage, h.port]

/-- The moves other than the sequencer's leave a blocked command blocked, if they leave its flag. -/
theorem Blocked.of_move {flag : PortState → Bool} {s t : State} {x : Turn} (h : Blocked flag s t)
    (hbusy : s.stage ≠ .idle) (hseq : x ≠ .seq) (hreset : x ≠ .reset)
    (hflag : ∀ u, takeTurn x t = .next u → flag (u.unit s.port) = flag (t.unit s.port)) :
    ∃ u, takeTurn x t = .next u ∧ Blocked flag s u := by
  obtain ⟨u, hu, k⟩ := agentKept_of_busy (h.stage ▸ hbusy) hseq hreset
  exact ⟨u, hu, k.stage.trans h.stage, k.port.trans h.port, k.responses.trans h.responses, k.cmds.trans h.cmds,
    (hflag u hu).trans h.clear⟩

/-- With `DRE` = 0 a poll of `TRANSMIT` changes nothing. -/
theorem seqTurn_txPoll_full {s : State} (h : s.stage = .txPoll) (hd : (s.unit s.port).dre = false) :
    seqTurn s = .next s := by
  rw [seqTurn_txPoll h, hd, if_neg Bool.false_ne_true, ← h]
  rfl

/-- With `RXC` = 0 a poll of `RECEIVE` changes nothing. -/
theorem seqTurn_rxPoll_empty {s : State} (h : s.stage = .rxPoll) (hr : (s.unit s.port).rxc = false) :
    seqTurn s = .next s := by
  rw [seqTurn_rxPoll h, hr, if_neg Bool.false_ne_true, ← h]
  rfl

/-- `DRE` of a port rises by a step of its `LineTx` alone. -/
theorem dre_of_no_step {x : Turn} {t u : State} {p : Port} (hseq : x ≠ .seq) (hreset : x ≠ .reset)
    (hno : x = .lineTx p → ¬ lineTxEnabled p t = true) (hu : takeTurn x t = .next u) :
    (u.unit p).dre = (t.unit p).dre := by
  obtain hd | ⟨-, rfl⟩ | ⟨-, hx, -⟩ := dre_of_takeTurn hreset hu p
  · exact hd
  · cases hu
    rw [lineTx_disabled (Bool.eq_false_of_not_eq_true (hno rfl))]
  · exact absurd hx hseq

/-- `RXC` of a port rises by a step of its `LineRx` alone. -/
theorem rxc_of_no_step {x : Turn} {t u : State} {p : Port} (hseq : x ≠ .seq) (hreset : x ≠ .reset)
    (hno : x = .lineRx p → ¬ (t.unit p).lineIn ≠ []) (hu : takeTurn x t = .next u) :
    (u.unit p).rxc = (t.unit p).rxc := by
  obtain hr | ⟨-, rfl⟩ | ⟨-, hx, -⟩ := rxc_of_takeTurn hreset hu p
  · exact hr
  · cases hu
    rw [lineRx_nil (not_not.mp (hno rfl))]
  · exact absurd hx hseq

theorem Blocked.transmit {s t : State} (h : Blocked PortState.dre s t) (hs : s.stage = .txPoll) {x : Turn}
    (hreset : x ≠ .reset) (hno : x = .lineTx s.port → ¬ lineTxEnabled s.port t = true) :
    ∃ u, takeTurn x t = .next u ∧ Blocked PortState.dre s u := by
  by_cases hx : x = .seq
  · subst hx
    exact ⟨t, seqTurn_txPoll_full (h.stage.trans hs) (by rw [h.port, h.clear]), h⟩
  · exact h.of_move (by rw [hs]; nofun) hx hreset fun u hu => dre_of_no_step hx hreset hno hu

theorem Blocked.receive {s t : State} (h : Blocked PortState.rxc s t) (hs : s.stage = .rxPoll) {x : Turn}
    (hreset : x ≠ .reset) (hno : x = .lineRx s.port → ¬ (t.unit s.port).lineIn ≠ []) :
    ∃ u, takeTurn x t = .next u ∧ Blocked PortState.rxc s u := by
  by_cases hx : x = .seq
  · subst hx
    exact ⟨t, seqTurn_rxPoll_empty (h.stage.trans hs) (by rw [h.port, h.clear]), h⟩
  · exact h.of_move (by rw [hs]; nofun) hx hreset fun u hu => rxc_of_no_step hx hreset hno hu

/-- Settles O57: every move keeps the command blocked, so every run of such moves does. -/
theorem unreadyPortBlocksForever : Obligations.UnreadyPortBlocksForever := by
  intro ms s hreset
  refine ⟨fun hs hd hno => ?_, fun hs hr hno => ?_⟩
  · obtain ⟨t, ht, hb⟩ := runTurns_of_takesNoStep (P := Blocked PortState.dre s)
      (fun x t hx hn hb => hb.transmit hs hx hn) hreset hno ⟨rfl, rfl, rfl, rfl, hd⟩
    exact ⟨t, ht, hb.seq, hb.responses, hb.cmds⟩
  · obtain ⟨t, ht, hb⟩ := runTurns_of_takesNoStep (P := Blocked PortState.rxc s)
      (fun x t hx hn hb => hb.receive hs hx hn) hreset hno ⟨rfl, rfl, rfl, rfl, hr⟩
    exact ⟨t, ht, hb.seq, hb.responses, hb.cmds⟩

end Sys2Proof.Proofs

/-! PROOFS. The block reset (70_reset_and_hazards.md R140, 10_state.md R28): the reset move of any state, and the step
that takes it. -/

namespace Sys2Proof.Proofs

open Sys2Proof.Machine Sys2Proof.Safety

theorem takeTurn_reset (s : State) : takeTurn .reset s = .next s.blockReset := rfl

/-- On the reset turn a step of every state, a `FAULTED` one among them, is the reset move. -/
theorem step_eq_takeTurn_reset {s : State} (h : s.nextTurn = .reset) : step s = takeTurn .reset s.useTurn :=
  (step_reset h).trans (takeTurn_reset s.useTurn).symm

/-- Settles O56: the reset move answers `blockReset`, read field by field. -/
theorem blockResetFromAnyState : Obligations.BlockResetFromAnyState := by
  refine ⟨fun s => ⟨s.blockReset, takeTurn_reset s, s.blockReset_seq, s.blockReset_faulted, s.blockReset_responses,
    fun p => ?_⟩, fun s hreset => step_eq_takeTurn_reset hreset⟩
  exact ⟨s.blockReset_ready p, s.blockReset_ctrlb p, s.blockReset_dre p, s.blockReset_rxc p, s.blockReset_lineOut p,
    fun hloop => State.blockReset_lineIn_loopback hloop p, fun hfree => State.blockReset_lineIn_free hfree p⟩

end Sys2Proof.Proofs

/-! PROOFS. The written-out words of 95_test_vectors.md T6: a command's word is the one `encode` gives, and a reserved
word is so for its own field. -/

namespace Sys2Proof.Proofs

theorem decode_eq_ok_of_encode_eq {w : CmdWord} {i : Instr} (h : encode i = w) : decode w = .ok i :=
  h ▸ decodeInvertsEncode i

/-- Settles O6: the six command words are the encodings of their commands, and each reserved word breaks the field
that `Decodes` names. -/
theorem writtenWordsDecode : Obligations.WrittenWordsDecode := by
  refine ⟨?_, ?_, ?_, ?_, ?_, ?_, ?op3, ?z0, ?z1, ?z2⟩
  case op3 => exact decode_eq_iff.mpr (.op3 rfl rfl)
  case z0 => exact decode_eq_iff.mpr (.z0NotZero (by decide))
  case z1 => exact decode_eq_iff.mpr (.z1NotZero rfl rfl (by decide))
  case z2 => exact decode_eq_iff.mpr (.z2NotZero rfl rfl (by decide))
  all_goals exact decode_eq_ok_of_encode_eq rfl

end Sys2Proof.Proofs
